-- ==== Sys2Proof/Word.lean ====
section
/-! DEFINITION. The word types: bytes, 64-bit state words, and the five-word state of a sponge context
(spec/00_scope.md R4, R9; spec/10_state.md R14). -/

namespace Sys2Proof

/-- A byte (R9). -/
abbrev Byte := BitVec 8

/-- A state word, 64 bits, unsigned (R4). -/
abbrev Word := BitVec 64

/-- The state of one context: exactly five 64-bit words (R4, R14). -/
structure Words where
  w0 : Word
  w1 : Word
  w2 : Word
  w3 : Word
  w4 : Word
deriving DecidableEq, Repr, Inhabited

/-- `[0, 0, 0, 0, 0]`: the reset value (R34) and the value a consumed context is left with (R149). -/
def Words.zero : Words := ⟨0, 0, 0, 0, 0⟩

end Sys2Proof
end

