-- ==== Sys2Proof/Syntax.lean ====
section
/-! DEFINITION. The syntax: the fifteen opcodes and commands of spec/30_encoding.md R67 (one constructor of `Instr`
for each row of opcode_table.json), and the assembler's pseudo-commands of R83. A command carries its payload bytes
as operands (R53, R82; log 10). -/

namespace Sys2Proof

/-- The assigned opcodes (R67). -/
inductive Opcode where
  | nop | query | clear | clone
  | initMac | initPrf | seedPrng
  | absorb
  | finalMac | verifyMac | finalPrf
  | read
  | feedEnd | generate
  | short
deriving DecidableEq, Repr

/-- A command with its operands. `ctx` is the CTX field; `len`, where it stands, is the LEN field as the word holds
it (a value other than 16 faults BAD_LENGTH, R64). -/
inductive Instr where
  /-- NOP (R101). -/
  | nop
  /-- QUERY cN (R106). -/
  | query (ctx : BitVec 4)
  /-- CLEAR cN (R110). -/
  | clear (ctx : BitVec 4)
  /-- CLONE cDST, cSRC (R114); `src` is the whole AUX field. -/
  | clone (dst : BitVec 4) (src : BitVec 8)
  /-- INIT_MAC cN, K (R141). -/
  | initMac (ctx : BitVec 4) (len : BitVec 8) (key : List Byte)
  /-- INIT_PRF cN, K (R155). -/
  | initPrf (ctx : BitVec 4) (len : BitVec 8) (key : List Byte)
  /-- SEED_PRNG cN, K (R170). -/
  | seedPrng (ctx : BitVec 4) (len : BitVec 8) (seed : List Byte)
  /-- ABSORB cN, B (R121); LEN is the number of bytes. -/
  | absorb (ctx : BitVec 4) (bytes : List Byte)
  /-- FINAL_MAC cN (R144). -/
  | finalMac (ctx : BitVec 4)
  /-- VERIFY_MAC cN, T' (R147). -/
  | verifyMac (ctx : BitVec 4) (len : BitVec 8) (tag : List Byte)
  /-- FINAL_PRF cN (R158). -/
  | finalPrf (ctx : BitVec 4)
  /-- READ cN, n (R161). -/
  | read (ctx : BitVec 4) (n : BitVec 8)
  /-- FEED_END cN (R174). -/
  | feedEnd (ctx : BitVec 4)
  /-- GENERATE cN (R178). -/
  | generate (ctx : BitVec 4)
  /-- SHORT cN, t, K, M (R201); `t` is the AUX field, the message length is the LEN field. -/
  | short (ctx : BitVec 4) (t : BitVec 8) (key msg : List Byte)
deriving DecidableEq, Repr

/-- The pseudo-commands of the assembler (R83). -/
inductive Pseudo where
  | absorbAll (ctx : BitVec 4) (bytes : List Byte)
  | readAll (ctx : BitVec 4) (n : Nat)
  | mac (ctx : BitVec 4) (key msg : List Byte)
  | macCheck (ctx : BitVec 4) (key msg tag : List Byte)
  | prf (ctx : BitVec 4) (key msg : List Byte) (n : Nat)
  | feed (ctx : BitVec 4) (entropy : List Byte)
  | drop (ctx : BitVec 4)
deriving DecidableEq, Repr

end Sys2Proof
end

