-- ==== Sys2Proof/WellFormed.lean ====
section
/-! DEFINITION. Which terms of `Instr` a command word and its payload can carry (spec/30_encoding.md R61, R64, R77), and
which of them the assembler accepts (R82). -/

namespace Sys2Proof

/-- The operands fit the encoding: a fixed 16-byte payload has 16 bytes, and a counted one at most the 255 that LEN
can count (R64, R77). Whether the engine then accepts the command is `check`'s affair (R238). -/
def Instr.wf : Instr → Bool
  | .nop => true
  | .query _ => true
  | .clear _ => true
  | .clone _ _ => true
  | .initMac _ _ key => key.length == 16
  | .initPrf _ _ key => key.length == 16
  | .seedPrng _ _ seed => seed.length == 16
  | .absorb _ bytes => bytes.length ≤ 255
  | .finalMac _ => true
  | .verifyMac _ _ tag => tag.length == 16
  | .finalPrf _ => true
  | .read _ _ => true
  | .feedEnd _ => true
  | .generate _ => true
  | .short _ _ key msg => key.length == 16 && msg.length ≤ 255

/-- What the assembler accepts (R82): it "refuses a line whose fields do not fit (a key that is not 16 bytes, more than
255 absorb bytes, a SHORT message over 16 bytes or t over 16) rather than emit a faulting word". LEN is written as 16
where it must be, and a CLONE source is a slot name c0 to c15. -/
def Instr.assembles : Instr → Bool
  | .nop => true
  | .query _ => true
  | .clear _ => true
  | .clone _ src => src.toNat < 16
  | .initMac _ len key => len == 16 && key.length == 16
  | .initPrf _ len key => len == 16 && key.length == 16
  | .seedPrng _ len seed => len == 16 && seed.length == 16
  | .absorb _ bytes => bytes.length ≤ 255
  | .finalMac _ => true
  | .verifyMac _ len tag => len == 16 && tag.length == 16
  | .finalPrf _ => true
  | .read _ _ => true
  | .feedEnd _ => true
  | .generate _ => true
  | .short _ t key msg => t.toNat ≤ 16 && key.length == 16 && msg.length ≤ 16

end Sys2Proof
end

