-- ==== Sys2Proof/Decode.lean ====
section
/-! DEFINITION. Decoding and encoding (spec/30_encoding.md): the fields of the command word (R61), the opcode map (R67),
the total payload length (R77), the rejected words by name (R66, R78), the encoder, the serialized form (20_memory.md R44)
and the pseudo-command expansions (R83). -/

namespace Sys2Proof

/-! ### The fields of the command word (R61) -/

/-- OP = W[7:0]. -/
def opField (w : BitVec 32) : BitVec 8 := w.extractLsb' 0 8

/-- LEN = W[15:8]. -/
def lenField (w : BitVec 32) : BitVec 8 := w.extractLsb' 8 8

/-- AUX = W[23:16]. -/
def auxField (w : BitVec 32) : BitVec 8 := w.extractLsb' 16 8

/-- CTX = W[27:24]. -/
def ctxField (w : BitVec 32) : BitVec 4 := w.extractLsb' 24 4

/-- RSVD = W[31:28]. -/
def rsvdField (w : BitVec 32) : BitVec 4 := w.extractLsb' 28 4

/-- The command word with RSVD = 0 and the given fields: `rrrr cccc aaaaaaaa llllllll oooooooo`. -/
def wordOfFields (ctx : BitVec 4) (aux len op : BitVec 8) : BitVec 32 := 0#4 ++ ctx ++ aux ++ len ++ op

/-! ### The opcode map (R67) -/

/-- The OP value of each command. -/
def Opcode.code : Opcode → BitVec 8
  | .nop => 0x00
  | .query => 0x01
  | .clear => 0x02
  | .clone => 0x03
  | .initMac => 0x10
  | .initPrf => 0x11
  | .seedPrng => 0x12
  | .absorb => 0x20
  | .finalMac => 0x30
  | .verifyMac => 0x31
  | .finalPrf => 0x38
  | .read => 0x40
  | .feedEnd => 0x50
  | .generate => 0x51
  | .short => 0x60

/-- All assigned opcodes, in the table's order. -/
def Opcode.all : List Opcode :=
  [.nop, .query, .clear, .clone, .initMac, .initPrf, .seedPrng, .absorb, .finalMac, .verifyMac, .finalPrf, .read,
    .feedEnd, .generate, .short]

/-- The command an OP value selects, if it is assigned (R62, R78). -/
def Opcode.ofCode? (op : BitVec 8) : Option Opcode := Opcode.all.find? fun o => o.code == op

/-- Whether a field that must be zero for the command is nonzero (R63 to R66; 60_exceptions.md R238 step 2, without
RSVD). -/
def Opcode.reservedFieldSet (o : Opcode) (len aux : BitVec 8) (ctx : BitVec 4) : Bool :=
  match o with
  | .nop => len != 0 || aux != 0 || ctx != 0
  | .query => len != 0 || aux != 0
  | .clear => len != 0 || aux != 0
  | .clone => len != 0
  | .initMac => aux != 0
  | .initPrf => aux != 0
  | .seedPrng => aux != 0
  | .absorb => aux != 0
  | .finalMac => len != 0 || aux != 0
  | .verifyMac => aux != 0
  | .finalPrf => len != 0 || aux != 0
  | .read => aux != 0
  | .feedEnd => len != 0 || aux != 0
  | .generate => len != 0 || aux != 0
  | .short => false

/-- `in_len(W)`, total over all command words (R77). -/
def inLen (w : BitVec 32) : Nat :=
  if opField w = 0x10 ∨ opField w = 0x11 ∨ opField w = 0x12 ∨ opField w = 0x31 then 16
  else if opField w = 0x20 then (lenField w).toNat
  else if opField w = 0x60 then 16 + (lenField w).toNat
  else 0

/-! ### Decoding -/

/-- Why a command word, or a serialized command, is no instruction. -/
inductive DecodeError where
  /-- OP is not assigned (R78): the engine faults ILLEGAL_OPCODE. -/
  | illegalOpcode
  /-- RSVD, or a field that must be zero, is not (R66): the engine faults RESERVED_FIELD. -/
  | reservedField
  /-- Of the serialized form only: fewer than 4 bytes, or fewer than `in_len(W)` after them. The engine holds
  (20_memory.md R54). -/
  | truncated
deriving DecidableEq, Repr

/-- The command word's fields, once RSVD is known to be zero and OP to be assigned. -/
structure Header where
  op : Opcode
  len : BitVec 8
  aux : BitVec 8
  ctx : BitVec 4
deriving DecidableEq, Repr

/-- The command word of a header. -/
def Header.toWord (h : Header) : BitVec 32 := wordOfFields h.ctx h.aux h.len h.op.code

/-- The header of a command word, by steps 1 and 2 of CHECK (60_exceptions.md R238): "A decoder reads OP, then the
fields of rule R61" (R81). -/
def Header.ofWord (w : BitVec 32) : Except DecodeError Header :=
  match Opcode.ofCode? (opField w) with
  | none => .error .illegalOpcode
  | some o =>
    if rsvdField w != 0 || o.reservedFieldSet (lenField w) (auxField w) (ctxField w) then .error .reservedField
    else .ok ⟨o, lenField w, auxField w, ctxField w⟩

/-- The instruction with this header and this payload of `in_len` bytes (R53, R77). -/
def Header.instr (h : Header) (payload : List Byte) : Instr :=
  match h.op with
  | .nop => .nop
  | .query => .query h.ctx
  | .clear => .clear h.ctx
  | .clone => .clone h.ctx h.aux
  | .initMac => .initMac h.ctx h.len payload
  | .initPrf => .initPrf h.ctx h.len payload
  | .seedPrng => .seedPrng h.ctx h.len payload
  | .absorb => .absorb h.ctx payload
  | .finalMac => .finalMac h.ctx
  | .verifyMac => .verifyMac h.ctx h.len payload
  | .finalPrf => .finalPrf h.ctx
  | .read => .read h.ctx h.len
  | .feedEnd => .feedEnd h.ctx
  | .generate => .generate h.ctx
  | .short => .short h.ctx h.aux (payload.take 16) (payload.drop 16)

/-- The decoder of the command port: a command word and the `in_len(W)` payload bytes that follow it (R53, R61). -/
def decode (w : BitVec 32) (payload : List Byte) : Except DecodeError Instr :=
  match Header.ofWord w with
  | .error e => .error e
  | .ok h => .ok (h.instr payload)

/-! ### Encoding -/

/-- The header of an instruction: the fields of its command word (R61 to R67). -/
def Instr.header : Instr → Header
  | .nop => ⟨.nop, 0, 0, 0⟩
  | .query ctx => ⟨.query, 0, 0, ctx⟩
  | .clear ctx => ⟨.clear, 0, 0, ctx⟩
  | .clone dst src => ⟨.clone, 0, src, dst⟩
  | .initMac ctx len _ => ⟨.initMac, len, 0, ctx⟩
  | .initPrf ctx len _ => ⟨.initPrf, len, 0, ctx⟩
  | .seedPrng ctx len _ => ⟨.seedPrng, len, 0, ctx⟩
  | .absorb ctx bytes => ⟨.absorb, BitVec.ofNat 8 bytes.length, 0, ctx⟩
  | .finalMac ctx => ⟨.finalMac, 0, 0, ctx⟩
  | .verifyMac ctx len _ => ⟨.verifyMac, len, 0, ctx⟩
  | .finalPrf ctx => ⟨.finalPrf, 0, 0, ctx⟩
  | .read ctx n => ⟨.read, n, 0, ctx⟩
  | .feedEnd ctx => ⟨.feedEnd, 0, 0, ctx⟩
  | .generate ctx => ⟨.generate, 0, 0, ctx⟩
  | .short ctx t _ msg => ⟨.short, BitVec.ofNat 8 msg.length, t, ctx⟩

/-- The payload bytes of an instruction, in the order the host sends them (R53, R82). -/
def Instr.payload : Instr → List Byte
  | .nop => []
  | .query _ => []
  | .clear _ => []
  | .clone _ _ => []
  | .initMac _ _ key => key
  | .initPrf _ _ key => key
  | .seedPrng _ _ seed => seed
  | .absorb _ bytes => bytes
  | .finalMac _ => []
  | .verifyMac _ _ tag => tag
  | .finalPrf _ => []
  | .read _ _ => []
  | .feedEnd _ => []
  | .generate _ => []
  | .short _ _ key msg => key ++ msg

/-- The command word of an instruction. -/
def Instr.word (i : Instr) : BitVec 32 := i.header.toWord

/-- The encoder: the command word and the payload of a well-formed instruction. -/
def encode (i : Instr) : BitVec 32 × List Byte := (i.word, i.payload)

/-! ### The serialized form (20_memory.md R44) -/

/-- The four bytes of a 32-bit word, most significant first (R44; `bytes_be32` of 41_context.md R106). -/
def bytesBe32 (w : BitVec 32) : List Byte :=
  [w.extractLsb' 24 8, w.extractLsb' 16 8, w.extractLsb' 8 8, w.extractLsb' 0 8]

/-- An instruction as bytes: the command word big-endian, then the payload (R44). -/
def encodeBytes (i : Instr) : List Byte := bytesBe32 i.word ++ i.payload

/-- The decoder on bytes: the first instruction of a byte string and what follows it. -/
def decodeBytes : List Byte → Except DecodeError (Instr × List Byte)
  | b3 :: b2 :: b1 :: b0 :: rest =>
    let w : BitVec 32 := b3 ++ b2 ++ b1 ++ b0
    if rest.length < inLen w then .error .truncated
    else
      match decode w (rest.take (inLen w)) with
      | .error e => .error e
      | .ok i => .ok (i, rest.drop (inLen w))
  | _ => .error .truncated

/-- The instruction the decoder reads from an opcode-table word of `nbits` bits; the payload bytes, to which the table
gives no bits, are zeros. -/
def decodeTableWord (nbits w : Nat) : Option Instr :=
  let word := BitVec.ofNat 32 (w % 2 ^ nbits)
  match decodeBytes (bytesBe32 word ++ List.replicate (inLen word) 0) with
  | .error _ => none
  | .ok (i, _) => some i

/-! ### The opcode table's rows (opcode_table.json) -/

/-- A row's mask: the bits the row fixes. -/
def Opcode.tableMask : Opcode → BitVec 32
  | .nop => 0xFFFFFFFF
  | .query => 0xF0FFFFFF
  | .clear => 0xF0FFFFFF
  | .clone => 0xF000FFFF
  | .initMac => 0xF0FFFFFF
  | .initPrf => 0xF0FFFFFF
  | .seedPrng => 0xF0FFFFFF
  | .absorb => 0xF0FF00FF
  | .finalMac => 0xF0FFFFFF
  | .verifyMac => 0xF0FFFFFF
  | .finalPrf => 0xF0FFFFFF
  | .read => 0xF0FF00FF
  | .feedEnd => 0xF0FFFFFF
  | .generate => 0xF0FFFFFF
  | .short => 0xF00000FF

/-- A row's match value: what the fixed bits are. -/
def Opcode.tableMatch : Opcode → BitVec 32
  | .nop => 0x00000000
  | .query => 0x00000001
  | .clear => 0x00000002
  | .clone => 0x00000003
  | .initMac => 0x00001010
  | .initPrf => 0x00001011
  | .seedPrng => 0x00001012
  | .absorb => 0x00000020
  | .finalMac => 0x00000030
  | .verifyMac => 0x00001031
  | .finalPrf => 0x00000038
  | .read => 0x00000040
  | .feedEnd => 0x00000050
  | .generate => 0x00000051
  | .short => 0x00000060

/-! ### Pseudo-commands (R83) -/

/-- Pieces of 255 bytes, the last holding the 1 to 255 remaining bytes, nothing for no bytes; `fuel` is at least the
number of pieces. -/
def chunks255 : Nat → List Byte → List (List Byte)
  | 0, _ => []
  | _ + 1, [] => []
  | fuel + 1, b :: bs => (b :: bs).take 255 :: chunks255 fuel ((b :: bs).drop 255)

/-- `ABSORB_ALL cN, B`: one ABSORB for each 255-byte piece. -/
def absorbAll (ctx : BitVec 4) (bytes : List Byte) : List Instr :=
  (chunks255 bytes.length bytes).map (Instr.absorb ctx)

/-- `READ_ALL cN, n`: `READ cN, 255` floor(n/255) times, then the remainder if there is one. -/
def readAll (ctx : BitVec 4) (n : Nat) : List Instr :=
  List.replicate (n / 255) (.read ctx 255) ++ (if n % 255 > 0 then [.read ctx (BitVec.ofNat 8 (n % 255))] else [])

/-- The expansion of each pseudo-command, in the order shown in R83. -/
def Pseudo.expand : Pseudo → List Instr
  | .absorbAll ctx bytes => Sys2Proof.absorbAll ctx bytes
  | .readAll ctx n => Sys2Proof.readAll ctx n
  | .mac ctx key msg => [.initMac ctx 16 key] ++ Sys2Proof.absorbAll ctx msg ++ [.finalMac ctx]
  | .macCheck ctx key msg tag => [.initMac ctx 16 key] ++ Sys2Proof.absorbAll ctx msg ++ [.verifyMac ctx 16 tag]
  | .prf ctx key msg n =>
    [.initPrf ctx 16 key] ++ Sys2Proof.absorbAll ctx msg ++ [.finalPrf ctx] ++ Sys2Proof.readAll ctx n
  | .feed ctx entropy => Sys2Proof.absorbAll ctx entropy ++ [.feedEnd ctx]
  | .drop ctx => [.clear ctx]

end Sys2Proof
end

