-- ==== Sys2Proof/Config.lean ====
section
/-! DEFINITION. The configuration: what is fixed when the hardware is built and no source gives a value for
(spec/00_scope.md R6 to R8; spec/93_implementation_defined.md I1 to I4). Every operation of the model takes a
`Config` as an argument, as R6 asks; `Config.hw` is the hardware's own, made of opaque constants, and `exec`,
`step` and `State.reset` are the operations at `Config.hw`. Log entries 1, 2 and 3. -/

namespace Sys2Proof

/-- Which initialization value: one for each persona, and one for each pair of a message length m and a tag
length t in 0..16 for SHORT (R6). -/
inductive IvName where
  | mac
  | prf
  | prng
  | short (m t : Fin 17)
deriving DecidableEq, Repr

/-- `SHORT_IDX`, the pair of word indices of the short-input tag: (0, 1) or (3, 4) (R6; 90_conflicts.md C6). -/
inductive ShortIdx where
  | zeroOne
  | threeFour
deriving DecidableEq, Repr, Inhabited

/-- The open parameters of R6, with the well-formedness R6 and R8 demand of them: a configuration with two equal
IVs, or with a slot count outside 1..16, is no SPONGE-CORE configuration and cannot be built. -/
structure Config where
  /-- The permutation `P`: total and deterministic by being a function (60_exceptions.md R233 (a), (b), (d)).
  That it is a bijection (R233 (c)) is not assumed. -/
  perm : Words → Words
  /-- `IV_MAC`, `IV_PRF`, `IV_PRNG` and `IV_SHORT(m, t)`, each an opaque word (R7). -/
  iv : IvName → Word
  /-- R8: the IVs are pairwise distinct. -/
  iv_injective : Function.Injective iv
  /-- `SHORT_IDX`. -/
  shortIdx : ShortIdx
  /-- `N_CTX`, the number of context slots. -/
  nCtx : Nat
  /-- R17: `1 <= N_CTX`. -/
  nCtx_pos : 1 ≤ nCtx
  /-- R17: `N_CTX <= 16`. -/
  nCtx_le : nCtx ≤ 16

namespace Config

/-- The hardware's permutation `P` (R6): any function of five words. DESIGN CHOICE, safe (log 1). -/
opaque hwPerm : Words → Words

/-- A permutation of the 64-bit words, from which the hardware's IVs are read (log 2). -/
opaque hwIvOrder : Equiv.Perm Word

/-- The hardware's `SHORT_IDX` (R6): either pair. DESIGN CHOICE, safe (log 1). -/
opaque hwShortIdx : ShortIdx

/-- The hardware's `N_CTX` less one (R6): any of 0..15. DESIGN CHOICE, safe (log 1). -/
opaque hwExtraSlots : Fin 16

/-- A number for each IV name, no two alike. -/
def ivNumber : IvName → Nat
  | .mac => 0
  | .prf => 1
  | .prng => 2
  | .short m t => 3 + (17 * m.val + t.val)

/-- The numbering of the IV names loses nothing. -/
theorem ivNumber_injective : Function.Injective ivNumber := by
  intro a b h
  cases a <;> cases b <;> simp only [ivNumber] at h <;> first
    | rfl
    | omega
    | (rename_i m t m' t'
       have hm : m = m' := Fin.ext (by omega)
       have ht : t = t' := Fin.ext (by omega)
       rw [hm, ht])

/-- No IV number reaches 2^64. -/
theorem ivNumber_lt (n : IvName) : ivNumber n < 2 ^ 64 := by
  cases n <;> simp only [ivNumber] <;> omega

/-- The hardware's IVs: the values of `hwIvOrder` at 292 different words. Every family of pairwise distinct IVs is
of this form for some permutation of the words (`Laws.Config.every_distinct_family`), so nothing is fixed here but
R8's distinctness. DESIGN CHOICE, safe (log 2). -/
def hwIv (n : IvName) : Word := hwIvOrder (BitVec.ofNat 64 (ivNumber n))

/-- R8 for the hardware's IVs. -/
theorem hwIv_injective : Function.Injective hwIv := by
  intro a b h
  have h' := congrArg BitVec.toNat (hwIvOrder.injective h)
  rw [BitVec.toNat_ofNat, BitVec.toNat_ofNat, Nat.mod_eq_of_lt (ivNumber_lt a),
    Nat.mod_eq_of_lt (ivNumber_lt b)] at h'
  exact ivNumber_injective h'

/-- The hardware's configuration: every open parameter of R6 left open. -/
def hw : Config where
  perm := hwPerm
  iv := hwIv
  iv_injective := hwIv_injective
  shortIdx := hwShortIdx
  nCtx := hwExtraSlots.val + 1
  nCtx_pos := Nat.le_add_left 1 _
  nCtx_le := hwExtraSlots.isLt

end Config

end Sys2Proof
end

