-- ==== Sys2Proof/Machine/State.lean ====
section
/-! DEFINITION. The state: N_CTX context slots, the fault record, and the two ports' data (spec/10_state.md;
spec/20_memory.md R53 to R58). Its reset value (10_state.md R34, R35; 70_reset_and_hazards.md R271), and the reasons a
step can stop. -/

namespace Sys2Proof.Machine

/-- PHASE: the lifecycle position of a slot's context (R24). The reserved codes 6 and 7 are never held and have no
constructor (log 11). -/
inductive Phase where
  /-- 0: no context. -/
  | empty
  /-- 1: MAC or PRF context accepting message bytes. -/
  | absorb
  /-- 2: PRF reader after finalization. -/
  | squeeze
  /-- 3: context consumed. -/
  | done
  /-- 4: PRNG context able to generate. -/
  | prngReady
  /-- 5: PRNG context with a feed not yet ended. -/
  | prngFeed
deriving DecidableEq, Repr

/-- PERSONA: which persona created the slot's context (R25). The reserved codes 5 to 7 have no constructor (log 11). -/
inductive Persona where
  | none
  | mac
  | prf
  | prng
  | short
deriving DecidableEq, Repr

/-- CAUSE: why the first fault was raised (R22; 60_exceptions.md R236). The reserved codes have no constructor
(log 11). -/
inductive Cause where
  | none
  | illegalOpcode
  | reservedField
  | badSlot
  | badLength
  | shortLength
  | illegalPhase
deriving DecidableEq, Repr

/-- One context slot (R13, R19): its seven fields. -/
structure Slot where
  /-- `S`, the five state words (R14). -/
  s : Words
  /-- `BUF`, the partial input block (R28). -/
  buf : Vector Byte 32
  /-- `BUFLEN`, the count of valid bytes of BUF, 0..31 (R29). -/
  bufLen : Fin 32
  /-- `OBUF`, the most recent extracted squeeze block (R30). -/
  obuf : Vector Byte 16
  /-- `SQPOS`, the index of the next undelivered byte of OBUF, 0..16 (R31). -/
  sqPos : Fin 17
  /-- `PHASE` (R24). -/
  phase : Phase
  /-- `PERSONA` (R25). -/
  persona : Persona
deriving DecidableEq, Repr

/-- `EMPTY_SLOT`, the reset value of one slot (R34, R35). -/
def Slot.empty : Slot where
  s := Words.zero
  buf := Vector.replicate 32 0
  bufLen := 0
  obuf := Vector.replicate 16 0
  sqPos := 16
  phase := .empty
  persona := .none

/-- What the host delivers to the engine, one item at a time (20_memory.md R44, R53, R54; 70_reset_and_hazards.md
R270). -/
inductive PortItem where
  /-- A command word on the command port. -/
  | word (w : BitVec 32)
  /-- One byte of an input payload. -/
  | byte (b : Byte)
  /-- The reset input, asserted between commands or while the engine holds for payload bytes. -/
  | reset
  /-- The reset input, asserted while the body of the command whose last item stands before it runs. -/
  | resetInBody
deriving DecidableEq, Repr

/-- One answer on the response port: the response word and the output payload (20_memory.md R55, R56). -/
structure Response where
  word : BitVec 32
  payload : List Byte
deriving DecidableEq, Repr

/-- The state of the machine: the engine of 10_state.md R13 and the two ports. -/
structure State where
  /-- The context slots, N_CTX of them (R17). -/
  slots : List Slot
  /-- `FAULT` (R21). -/
  fault : Bool
  /-- `CAUSE` (R22). -/
  cause : Cause
  /-- `FCMD`, the command word of the first faulting command (R23). -/
  fcmd : BitVec 32
  /-- What the host has still to deliver, first item first (20_memory.md R53, R54; log 4). -/
  input : List PortItem
  /-- What the engine has answered, oldest first: the observation of 20_memory.md R58 (log 4). -/
  responses : List Response
deriving DecidableEq, Repr

/-- The state after reset for a configuration (R34): every slot EMPTY_SLOT, no fault, nothing on the ports. -/
def State.resetFor (cfg : Config) : State where
  slots := List.replicate cfg.nCtx Slot.empty
  fault := false
  cause := .none
  fcmd := 0
  input := []
  responses := []

/-- The machine right after reset. -/
def State.reset : State := State.resetFor Config.hw

/-- Why the machine has no step. Neither is raised by an instruction; both are raised by `step`, and both are safe: the
model stops where the hardware holds (20_memory.md R54; 93_implementation_defined.md I9; log 5). -/
inductive Fault where
  /-- Raised by `step` when the host has delivered nothing more: the engine waits for a command (R272, R249). -/
  | awaitingCommand
  /-- Raised by `step` when the command's payload is incomplete: "While the input payload is incomplete the engine
  holds (it has no step ...)" (R54). -/
  | awaitingPayload
deriving DecidableEq, Repr

/-- What the model gives no meaning to. All are safe: the model stops. -/
inductive Refusal where
  /-- An instruction with no meaning yet, by its mnemonic. No arm of `exec` answers it. -/
  | notModelled (mnemonic : String)
  /-- Raised by `step` for a payload byte where a command word is due: the host sent more bytes than `in_len`
  (20_memory.md R57; 93_implementation_defined.md I10 "refuse"; log 6). -/
  | surplusByte
  /-- Raised by `step` for a command word inside a payload: the host sent fewer bytes than `in_len` (I10; log 6). -/
  | commandBeforePayload
deriving DecidableEq, Repr

end Sys2Proof.Machine
end

