-- ==== Sys2Proof/Machine/Operands.lean ====
section
/-! DEFINITION. The operand forms: the fixed constants, the conversions between bytes and words, and how a payload gives
a command its key words and message words (spec/00_scope.md R5, R9, R10; spec/20_memory.md R43). -/

namespace Sys2Proof.Machine

/-- `PAD_MARKER` (R5). -/
def padMarker : Byte := 0x80

/-- `DS_INTERIOR`: the domain value of an interior block (R5). -/
def dsInterior : Word := 0

/-- `DS_FINAL`: the domain value of the final block (R5). -/
def dsFinal : Word := 1

/-- The command-set version code (R2). -/
def versionCode : Byte := 0x01

/-- `SHORT_MAX_M` and `SHORT_MAX_T` (R5). -/
def shortMax : Nat := 16

/-- `zeros(n)` (R9). -/
def zeros (n : Nat) : List Byte := List.replicate n 0

/-- `be64(B)`: the 64-bit word of 8 bytes, the first the most significant (R10). -/
def be64 (bytes : List Byte) : Word := bytes.foldl (fun w b => (w <<< 8) ||| b.setWidth 64) 0

/-- `bytes_be(w)`: byte k is `w[63-8k : 56-8k]`, for k in 0..7 (R10). -/
def bytesBe (w : Word) : List Byte := (List.range 8).map fun k => w.extractLsb' (56 - 8 * k) 8

/-- The word of bytes `8i` to `8i+7` of a byte string. -/
def wordAt (bytes : List Byte) (i : Nat) : Word := be64 ((bytes.drop (8 * i)).take 8)

/-- The five words `[iv, k0, k1, m0, m1]` for a 16-byte key K: `k0 = be64(K[0..8))`, `k1 = be64(K[8..16))` (40_datapath.md
R87; 46_short.md R203). -/
def keyedWords (iv : Word) (key : List Byte) (m0 m1 : Word) : Words := ⟨iv, wordAt key 0, wordAt key 1, m0, m1⟩

/-- A SHORT message as 16 bytes: zero fill, no marker byte (R203). -/
def shortMessage (msg : List Byte) : List Byte := msg ++ zeros (16 - msg.length)

/-- The name of `IV_SHORT(m, t)` (46_short.md R202). Both are at most 16 whenever a SHORT passes its checks (log 15). -/
def shortIv (m t : Nat) : IvName := .short (Fin.ofNat 17 m) (Fin.ofNat 17 t)

/-- The pair of words `SHORT_IDX` selects (46_short.md R205). -/
def selectWords : ShortIdx → Words → Word × Word
  | .zeroOne, s => (s.w0, s.w1)
  | .threeFour, s => (s.w3, s.w4)

end Sys2Proof.Machine
end

