-- ==== Sys2Proof/Machine/Flags.lean ====
section
/-! DEFINITION. Status codes and flags: the PHASE, PERSONA and CAUSE codes (spec/10_state.md R24, R25; spec/60_exceptions.md
R236), the response word (spec/20_memory.md R55), the phase admission table (60_exceptions.md R239) and the tag comparison
(43_mac.md R147). -/

namespace Sys2Proof.Machine

/-- The 3-bit PHASE code (R24). -/
def phaseCode : Phase → BitVec 3
  | .empty => 0
  | .absorb => 1
  | .squeeze => 2
  | .done => 3
  | .prngReady => 4
  | .prngFeed => 5

/-- The 3-bit PERSONA code (R25). -/
def personaCode : Persona → BitVec 3
  | .none => 0
  | .mac => 1
  | .prf => 2
  | .prng => 3
  | .short => 4

/-- The 8-bit CAUSE code (R236). -/
def causeCode : Cause → BitVec 8
  | .none => 0x00
  | .illegalOpcode => 0x01
  | .reservedField => 0x02
  | .badSlot => 0x03
  | .badLength => 0x04
  | .shortLength => 0x05
  | .illegalPhase => 0x06

/-- `SHORT_IDX_CODE` (41_context.md R106). -/
def shortIdxCode : ShortIdx → Byte
  | .zeroOne => 0x00
  | .threeFour => 0x01

/-- The result of VERIFY_MAC, as the response word shows it: VPASS, VFAIL, or neither for every other command (R55). -/
inductive Verdict where
  | none
  | pass
  | fail
deriving DecidableEq, Repr

/-- The response word (R55): bits 31:23 zero, 22:20 PERSONA, 19 zero, 18:16 PHASE, 15:8 CAUSE, 7:4 zero, 3 VFAIL,
2 VPASS, 1 FAULT, 0 OK. -/
def responseWord (ok fault : Bool) (verdict : Verdict) (cause : Cause) (phase persona : BitVec 3) : BitVec 32 :=
  0#9 ++ persona ++ 0#1 ++ phase ++ causeCode cause ++ 0#4 ++ BitVec.ofBool (verdict == .fail) ++
    BitVec.ofBool (verdict == .pass) ++ BitVec.ofBool fault ++ BitVec.ofBool ok

/-- Phase admission (R239): whether a slot in this phase, with this persona, admits the command. -/
def admits (o : Opcode) (phase : Phase) (persona : Persona) : Bool :=
  match o with
  | .nop => true
  | .query => true
  | .clear => true
  | .clone => true
  | .initMac => true
  | .initPrf => true
  | .seedPrng => true
  | .short => true
  | .absorb =>
    (phase == .absorb && (persona == .mac || persona == .prf)) ||
      ((phase == .prngReady || phase == .prngFeed) && persona == .prng)
  | .finalMac => phase == .absorb && persona == .mac
  | .verifyMac => phase == .absorb && persona == .mac
  | .finalPrf => phase == .absorb && persona == .prf
  | .read => phase == .squeeze && persona == .prf
  | .feedEnd => (phase == .prngReady || phase == .prngFeed) && persona == .prng
  | .generate => phase == .prngReady && persona == .prng

/-- `d`: the OR over k of `T[k] XOR T'[k]`, every byte pair examined (R147). -/
def tagDifference (tag expected : List Byte) : Byte :=
  (List.zipWith (fun t e => t ^^^ e) tag expected).foldl (fun d x => d ||| x) 0

/-- VPASS when `d = 0`, VFAIL when not (R147). -/
def tagVerdict (tag expected : List Byte) : Verdict := if tagDifference tag expected = 0 then .pass else .fail

end Sys2Proof.Machine
end

