-- ==== Sys2Proof/Machine/Ops.lean ====
section
/-! DEFINITION. The shared operations: access to the slots, the datapath primitives (spec/40_datapath.md R86 to R93), the
response (20_memory.md R55), taking a fault (60_exceptions.md R237), reset (70_reset_and_hazards.md R271), CHECK (R238) and
the command frame every command runs in (R237). -/

namespace Sys2Proof.Machine

/-! ### Slots -/

/-- The slot with number `c`. A number that is no slot reads as EMPTY_SLOT; no command that passes CHECK has one in a
state with N_CTX slots (log 12). -/
def State.slotAt (s : State) (c : Nat) : Slot := s.slots.getD c Slot.empty

/-- Write slot `c`, and nothing else. -/
def State.setSlot (s : State) (c : Nat) (sl : Slot) : State := { s with slots := s.slots.set c sl }

/-! ### Datapath primitives, each on one slot -/

/-- PERMUTE (R86): one call of the permutation port (60_exceptions.md R232). -/
def permute (cfg : Config) (sl : Slot) : Slot := { sl with s := cfg.perm sl.s }

/-- INIT_STATE (R87). -/
def initState (cfg : Config) (iv : Word) (key : List Byte) (sl : Slot) : Slot :=
  permute cfg { sl with s := keyedWords iv key 0 0 }

/-- The five XORs of COMPRESS, before its permutation (R88). -/
def xorBlock (s : Words) (block : List Byte) (last : Word) : Words :=
  ⟨s.w0 ^^^ wordAt block 0, s.w1 ^^^ wordAt block 1, s.w2 ^^^ wordAt block 2, s.w3 ^^^ wordAt block 3, s.w4 ^^^ last⟩

/-- COMPRESS (R88). -/
def compress (cfg : Config) (block : List Byte) (last : Word) (sl : Slot) : Slot :=
  permute cfg { sl with s := xorBlock sl.s block last }

/-- BUF <- zeros(32), BUFLEN <- 0. -/
def clearBuf (sl : Slot) : Slot := { sl with buf := Vector.replicate 32 0, bufLen := 0 }

/-- APPEND (R89): the byte goes to BUF[BUFLEN]; a block that becomes full is absorbed at once with the interior marker. -/
def append (cfg : Config) (sl : Slot) (b : Byte) : Slot :=
  let buf := sl.buf.set sl.bufLen.val b sl.bufLen.isLt
  if h : sl.bufLen.val + 1 < 32 then { sl with buf := buf, bufLen := ⟨sl.bufLen.val + 1, h⟩ }
  else clearBuf (compress cfg buf.toList dsInterior sl)

/-- APPEND of each byte in order. -/
def appendAll (cfg : Config) (sl : Slot) (bytes : List Byte) : Slot := bytes.foldl (append cfg) sl

/-- The padded block of PAD_FLUSH (R90): the buffered bytes, the marker, zero fill, 32 bytes. -/
def paddedBlock (buffered : List Byte) : List Byte := buffered ++ [padMarker] ++ zeros (31 - buffered.length)

/-- The valid bytes of BUF: `BUF[0..BUFLEN)`. -/
def Slot.buffered (sl : Slot) : List Byte := sl.buf.toList.take sl.bufLen.val

/-- PAD_FLUSH (R90): always exactly one padded block, with the final marker. -/
def padFlush (cfg : Config) (sl : Slot) : Slot := clearBuf (compress cfg (paddedBlock sl.buffered) dsFinal sl)

/-- EXTRACT (R92): `bytes_be(S[0]) ++ bytes_be(S[1])`, 16 bytes. -/
def extract (s : Words) : Vector Byte 16 := ⟨(bytesBe s.w0 ++ bytesBe s.w1).toArray, by simp [bytesBe]⟩

/-- SQUEEZE_BLOCK (R93): extraction, then at once one permutation. -/
def squeezeBlock (cfg : Config) (sl : Slot) : Slot :=
  { permute cfg { sl with obuf := extract sl.s } with sqPos := 0 }

/-- The fresh buffers and lifecycle of a new context (43_mac.md R141; 46_short.md R206): BUF and OBUF zero, BUFLEN 0,
SQPOS 16. -/
def freshContext (phase : Phase) (persona : Persona) (sl : Slot) : Slot :=
  { clearBuf sl with obuf := Vector.replicate 16 0, sqPos := 16, phase := phase, persona := persona }

/-- A new keyed context: INIT_STATE, then the fresh buffers (R141, R155, R170). -/
def startContext (cfg : Config) (iv : IvName) (phase : Phase) (persona : Persona) (key : List Byte) (sl : Slot) : Slot :=
  freshContext phase persona (initState cfg (cfg.iv iv) key sl)

/-- The finish of a MAC context: PAD_FLUSH, and the tag is EXTRACT of the result (R144, R147). -/
def macTag (cfg : Config) (sl : Slot) : List Byte := (extract (padFlush cfg sl).s).toList

/-- The consumed context FINAL_MAC and VERIFY_MAC leave: the state words zeroed, DONE, persona kept (R144, R147, R149). -/
def consumeMac (cfg : Config) (sl : Slot) : Slot :=
  { padFlush cfg sl with s := Words.zero, phase := .done }

/-! ### The response (20_memory.md R55, R56) -/

/-- Put an answer on the response port. -/
def State.respond (s : State) (word : BitVec 32) (payload : List Byte) : State :=
  { s with responses := s.responses ++ [⟨word, payload⟩] }

/-- What a command's body gives: the new content of the addressed slot, the output payload, and VERIFY_MAC's result. -/
structure BodyResult where
  slot : Slot
  out : List Byte
  verdict : Verdict
deriving DecidableEq, Repr

/-- The answer to a completed command: OK = 1, FAULT and CAUSE as held, PHASE and PERSONA of the addressed slot. -/
def respondOk (r : BodyResult) (s : State) : State :=
  s.respond (responseWord true s.fault r.verdict s.cause (phaseCode r.slot.phase) (personaCode r.slot.persona)) r.out

/-- The answer to a rejected command: OK = 0, FAULT and CAUSE as held, all else zero, no output. -/
def respondRejected (s : State) : State := s.respond (responseWord false s.fault .none s.cause 0 0) []

/-! ### Taking a fault, and the only way back (60_exceptions.md R237, R242) -/

/-- Fault entry (R237): FAULT <- 1, CAUSE <- c, FCMD <- W; no slot changes. -/
def faultEntry (w : BitVec 32) (c : Cause) (s : State) : State := { s with fault := true, cause := c, fcmd := w }

/-- Reset (R271, R272): every field of the engine at its reset value, the partial command's bytes discarded. What the host
sends afterwards, and what it has already received, are the host's (log 4, 7). -/
def resetWith (cfg : Config) (rest : List PortItem) (s : State) : State :=
  { State.resetFor cfg with input := rest, responses := s.responses }

/-! ### CHECK (60_exceptions.md R238) -/

/-- Step 3: CTX names a slot, and for CLONE AUX does too. -/
def slotsExist (cfg : Config) (h : Header) : Bool :=
  h.ctx.toNat < cfg.nCtx && (h.op != .clone || h.aux.toNat < cfg.nCtx)

/-- Step 4: BAD_LENGTH of the commands with a fixed 16-byte payload, SHORT_LENGTH of SHORT. -/
def lengthCause (h : Header) : Cause :=
  match h.op with
  | .initMac => if h.len = 16 then .none else .badLength
  | .initPrf => if h.len = 16 then .none else .badLength
  | .seedPrng => if h.len = 16 then .none else .badLength
  | .verifyMac => if h.len = 16 then .none else .badLength
  | .short => if h.len.toNat ≤ shortMax ∧ h.aux.toNat ≤ shortMax then .none else .shortLength
  | .nop => .none
  | .query => .none
  | .clear => .none
  | .clone => .none
  | .absorb => .none
  | .finalMac => .none
  | .finalPrf => .none
  | .read => .none
  | .feedEnd => .none
  | .generate => .none

/-- CHECK, steps 3 to 5, of a word whose steps 1 and 2 the decoder passed: the first cause that applies, or NONE. -/
def check (cfg : Config) (h : Header) (s : State) : Cause :=
  if slotsExist cfg h = false then .badSlot
  else if lengthCause h ≠ .none then lengthCause h
  else if admits h.op (s.slotAt h.ctx.toNat).phase (s.slotAt h.ctx.toNat).persona = false then .illegalPhase
  else .none

/-- The cause of a word the decoder rejects: steps 1 and 2 of CHECK. (`truncated` is of the serialized form only; the
engine holds until the bytes are there.) -/
def decodeCause : DecodeError → Cause
  | .illegalOpcode => .illegalOpcode
  | .reservedField => .reservedField
  | .truncated => .none

/-- CHECK of a whole command word (R238). -/
def checkWord (cfg : Config) (w : BitVec 32) (s : State) : Cause :=
  match Header.ofWord w with
  | .error e => decodeCause e
  | .ok h => check cfg h s

/-! ### The command frame (60_exceptions.md R237) -/

/-- The commands that run while FAULT = 1 (R240). -/
def runsWhileFaulted (o : Opcode) : Bool := o == .nop || o == .query

/-- The body on the addressed slot, then the answer OK = 1. -/
def complete (h : Header) (body : Slot → BodyResult) (s : State) : State :=
  respondOk (body (s.slotAt h.ctx.toNat)) (s.setSlot h.ctx.toNat (body (s.slotAt h.ctx.toNat)).slot)

/-- EXEC(W) for a decoded command. -/
def frame (cfg : Config) (h : Header) (body : Slot → BodyResult) (s : State) : State :=
  if s.fault = true then
    if runsWhileFaulted h.op = true ∧ check cfg h s = .none then complete h body s else respondRejected s
  else if check cfg h s = .none then complete h body s
  else respondRejected (faultEntry h.toWord (check cfg h s) s)

/-- EXEC(W) for a word the decoder rejects. -/
def frameRejected (w : BitVec 32) (e : DecodeError) (s : State) : State :=
  if s.fault = true then respondRejected s else respondRejected (faultEntry w (decodeCause e) s)

end Sys2Proof.Machine
end

