-- ==== Sys2Proof/Machine/Absorb.lean ====
section
/-! DEFINITION. The absorption command ABSORB (spec/42_absorb.md). -/

namespace Sys2Proof.Machine

/-- A PRNG context that takes entropy is PRNG_FEED from then on; a MAC or PRF context stays in ABSORB (R121). -/
def feedPhase : Phase → Phase
  | .empty => .empty
  | .absorb => .absorb
  | .squeeze => .squeeze
  | .done => .done
  | .prngReady => .prngFeed
  | .prngFeed => .prngFeed

/-- ABSORB's body: APPEND of every byte in order, then the phase (R121). -/
def absorbBody (cfg : Config) (bytes : List Byte) (sl : Slot) : BodyResult :=
  ⟨{ appendAll cfg sl bytes with phase := feedPhase sl.phase }, [], .none⟩

/-- ABSORB cN, B (R121), in any configuration. -/
def runAbsorb (cfg : Config) (ctx : BitVec 4) (bytes : List Byte) (s : State) : State :=
  frame cfg (Instr.absorb ctx bytes).header (absorbBody cfg bytes) s

/-- ABSORB cN, B (R121). -/
def execAbsorb (ctx : BitVec 4) (bytes : List Byte) (s : State) : Host.Outcome State Fault Refusal :=
  .next (runAbsorb Config.hw ctx bytes s)

end Sys2Proof.Machine
end

