-- ==== Sys2Proof/Machine/Context.lean ====
section
/-! DEFINITION. The context-management commands NOP, QUERY, CLEAR and CLONE (spec/41_context.md). Each command is a body on
the addressed slot, run in the command frame; `run…` takes the configuration, `exec…` is it at the hardware's. -/

namespace Sys2Proof.Machine

/-- NOP's body: nothing (R101). -/
def nopBody (sl : Slot) : BodyResult := ⟨sl, [], .none⟩

/-- NOP (R101), in any configuration. -/
def runNop (cfg : Config) (s : State) : State := frame cfg Instr.nop.header nopBody s

/-- NOP (R101). -/
def execNop (s : State) : Host.Outcome State Fault Refusal := .next (runNop Config.hw s)

/-- The 12 bytes of QUERY (R106). -/
def queryPayload (cfg : Config) (fcmd : BitVec 32) (sl : Slot) : List Byte :=
  [(phaseCode sl.phase).setWidth 8, (personaCode sl.persona).setWidth 8, BitVec.ofNat 8 sl.bufLen.val,
    BitVec.ofNat 8 sl.sqPos.val, BitVec.ofNat 8 cfg.nCtx, padMarker, shortIdxCode cfg.shortIdx, versionCode] ++
  bytesBe32 fcmd

/-- QUERY's body: writes no state (R106). -/
def queryBody (cfg : Config) (fcmd : BitVec 32) (sl : Slot) : BodyResult := ⟨sl, queryPayload cfg fcmd sl, .none⟩

/-- QUERY cN (R106), in any configuration. -/
def runQuery (cfg : Config) (ctx : BitVec 4) (s : State) : State :=
  frame cfg (Instr.query ctx).header (queryBody cfg s.fcmd) s

/-- QUERY cN (R106). -/
def execQuery (ctx : BitVec 4) (s : State) : Host.Outcome State Fault Refusal := .next (runQuery Config.hw ctx s)

/-- CLEAR's body: the slot becomes EMPTY_SLOT (R110). -/
def clearBody (_ : Slot) : BodyResult := ⟨Slot.empty, [], .none⟩

/-- CLEAR cN (R110), in any configuration. -/
def runClear (cfg : Config) (ctx : BitVec 4) (s : State) : State := frame cfg (Instr.clear ctx).header clearBody s

/-- CLEAR cN (R110). -/
def execClear (ctx : BitVec 4) (s : State) : Host.Outcome State Fault Refusal := .next (runClear Config.hw ctx s)

/-- CLONE's body: all seven fields of the source slot (R114). -/
def cloneBody (source : Slot) (_ : Slot) : BodyResult := ⟨source, [], .none⟩

/-- CLONE cDST, cSRC (R114), in any configuration. -/
def runClone (cfg : Config) (dst : BitVec 4) (src : BitVec 8) (s : State) : State :=
  frame cfg (Instr.clone dst src).header (cloneBody (s.slotAt src.toNat)) s

/-- CLONE cDST, cSRC (R114). -/
def execClone (dst : BitVec 4) (src : BitVec 8) (s : State) : Host.Outcome State Fault Refusal :=
  .next (runClone Config.hw dst src s)

end Sys2Proof.Machine
end

