-- ==== Sys2Proof/Machine/Mac.lean ====
section
/-! DEFINITION. The MAC persona: INIT_MAC, FINAL_MAC and VERIFY_MAC (spec/43_mac.md). -/

namespace Sys2Proof.Machine

/-- INIT_MAC's body (R141). -/
def initMacBody (cfg : Config) (key : List Byte) (sl : Slot) : BodyResult :=
  ⟨startContext cfg .mac .absorb .mac key sl, [], .none⟩

/-- INIT_MAC cN, K (R141), in any configuration. -/
def runInitMac (cfg : Config) (ctx : BitVec 4) (len : BitVec 8) (key : List Byte) (s : State) : State :=
  frame cfg (Instr.initMac ctx len key).header (initMacBody cfg key) s

/-- INIT_MAC cN, K (R141). -/
def execInitMac (ctx : BitVec 4) (len : BitVec 8) (key : List Byte) (s : State) : Host.Outcome State Fault Refusal :=
  .next (runInitMac Config.hw ctx len key s)

/-- FINAL_MAC's body: the padded block, the tag out, the context consumed (R144). -/
def finalMacBody (cfg : Config) (sl : Slot) : BodyResult := ⟨consumeMac cfg sl, macTag cfg sl, .none⟩

/-- FINAL_MAC cN (R144), in any configuration. -/
def runFinalMac (cfg : Config) (ctx : BitVec 4) (s : State) : State :=
  frame cfg (Instr.finalMac ctx).header (finalMacBody cfg) s

/-- FINAL_MAC cN (R144). -/
def execFinalMac (ctx : BitVec 4) (s : State) : Host.Outcome State Fault Refusal := .next (runFinalMac Config.hw ctx s)

/-- VERIFY_MAC's body: the padded block, the comparison, the context consumed; no tag out (R147). -/
def verifyMacBody (cfg : Config) (expected : List Byte) (sl : Slot) : BodyResult :=
  ⟨consumeMac cfg sl, [], tagVerdict (macTag cfg sl) expected⟩

/-- VERIFY_MAC cN, T' (R147), in any configuration. -/
def runVerifyMac (cfg : Config) (ctx : BitVec 4) (len : BitVec 8) (tag : List Byte) (s : State) : State :=
  frame cfg (Instr.verifyMac ctx len tag).header (verifyMacBody cfg tag) s

/-- VERIFY_MAC cN, T' (R147). -/
def execVerifyMac (ctx : BitVec 4) (len : BitVec 8) (tag : List Byte) (s : State) : Host.Outcome State Fault Refusal :=
  .next (runVerifyMac Config.hw ctx len tag s)

end Sys2Proof.Machine
end

