-- ==== Sys2Proof/Machine/Prf.lean ====
section
/-! DEFINITION. The PRF persona: INIT_PRF, FINAL_PRF and READ (spec/44_prf.md). -/

namespace Sys2Proof.Machine

/-- INIT_PRF's body (R155). -/
def initPrfBody (cfg : Config) (key : List Byte) (sl : Slot) : BodyResult :=
  ⟨startContext cfg .prf .absorb .prf key sl, [], .none⟩

/-- INIT_PRF cN, K (R155), in any configuration. -/
def runInitPrf (cfg : Config) (ctx : BitVec 4) (len : BitVec 8) (key : List Byte) (s : State) : State :=
  frame cfg (Instr.initPrf ctx len key).header (initPrfBody cfg key) s

/-- INIT_PRF cN, K (R155). -/
def execInitPrf (ctx : BitVec 4) (len : BitVec 8) (key : List Byte) (s : State) : Host.Outcome State Fault Refusal :=
  .next (runInitPrf Config.hw ctx len key s)

/-- FINAL_PRF's body: the padded block, then a reader with no block extracted yet (R158). -/
def finalPrfBody (cfg : Config) (sl : Slot) : BodyResult :=
  ⟨{ padFlush cfg sl with obuf := Vector.replicate 16 0, sqPos := 16, phase := .squeeze }, [], .none⟩

/-- FINAL_PRF cN (R158), in any configuration. -/
def runFinalPrf (cfg : Config) (ctx : BitVec 4) (s : State) : State :=
  frame cfg (Instr.finalPrf ctx).header (finalPrfBody cfg) s

/-- FINAL_PRF cN (R158). -/
def execFinalPrf (ctx : BitVec 4) (s : State) : Host.Outcome State Fault Refusal := .next (runFinalPrf Config.hw ctx s)

/-- Deliver OBUF[k] and move SQPOS past it (R163). -/
def deliverByte (sl : Slot) (k : Fin 16) : Byte × Slot := (sl.obuf[k], { sl with sqPos := k.succ })

/-- One turn of READ's loop: a fresh block first when SQPOS is 16 (R163). -/
def nextByte (cfg : Config) (sl : Slot) : Byte × Slot :=
  if h : sl.sqPos.val < 16 then deliverByte sl ⟨sl.sqPos.val, h⟩ else deliverByte (squeezeBlock cfg sl) 0

/-- READ's loop (R163): the bytes delivered, and the slot after them. -/
def readBytes (cfg : Config) : Nat → Slot → List Byte × Slot
  | 0, sl => ([], sl)
  | n + 1, sl =>
    ((nextByte cfg sl).1 :: (readBytes cfg n (nextByte cfg sl).2).1, (readBytes cfg n (nextByte cfg sl).2).2)

/-- READ's body (R161, R163). -/
def readBody (cfg : Config) (n : BitVec 8) (sl : Slot) : BodyResult :=
  ⟨(readBytes cfg n.toNat sl).2, (readBytes cfg n.toNat sl).1, .none⟩

/-- READ cN, n (R161), in any configuration. -/
def runRead (cfg : Config) (ctx : BitVec 4) (n : BitVec 8) (s : State) : State :=
  frame cfg (Instr.read ctx n).header (readBody cfg n) s

/-- READ cN, n (R161). -/
def execRead (ctx : BitVec 4) (n : BitVec 8) (s : State) : Host.Outcome State Fault Refusal :=
  .next (runRead Config.hw ctx n s)

end Sys2Proof.Machine
end

