-- ==== Sys2Proof/Machine/Prng.lean ====
section
/-! DEFINITION. The PRNG persona: SEED_PRNG, FEED_END and GENERATE (spec/45_prng.md). -/

namespace Sys2Proof.Machine

/-- SEED_PRNG's body: the seed takes the key's place (R170). -/
def seedPrngBody (cfg : Config) (seed : List Byte) (sl : Slot) : BodyResult :=
  ⟨startContext cfg .prng .prngReady .prng seed sl, [], .none⟩

/-- SEED_PRNG cN, K (R170), in any configuration. -/
def runSeedPrng (cfg : Config) (ctx : BitVec 4) (len : BitVec 8) (seed : List Byte) (s : State) : State :=
  frame cfg (Instr.seedPrng ctx len seed).header (seedPrngBody cfg seed) s

/-- SEED_PRNG cN, K (R170). -/
def execSeedPrng (ctx : BitVec 4) (len : BitVec 8) (seed : List Byte) (s : State) : Host.Outcome State Fault Refusal :=
  .next (runSeedPrng Config.hw ctx len seed s)

/-- FEED_END's body: the entropy's padded final block (R174). -/
def feedEndBody (cfg : Config) (sl : Slot) : BodyResult := ⟨{ padFlush cfg sl with phase := .prngReady }, [], .none⟩

/-- FEED_END cN (R174), in any configuration. -/
def runFeedEnd (cfg : Config) (ctx : BitVec 4) (s : State) : State :=
  frame cfg (Instr.feedEnd ctx).header (feedEndBody cfg) s

/-- FEED_END cN (R174). -/
def execFeedEnd (ctx : BitVec 4) (s : State) : Host.Outcome State Fault Refusal := .next (runFeedEnd Config.hw ctx s)

/-- GENERATE's body: words 0 and 1 as big-endian bytes, then PERMUTE (R178). -/
def generateBody (cfg : Config) (sl : Slot) : BodyResult :=
  ⟨permute cfg sl, bytesBe sl.s.w0 ++ bytesBe sl.s.w1, .none⟩

/-- GENERATE cN (R178), in any configuration. -/
def runGenerate (cfg : Config) (ctx : BitVec 4) (s : State) : State :=
  frame cfg (Instr.generate ctx).header (generateBody cfg) s

/-- GENERATE cN (R178). -/
def execGenerate (ctx : BitVec 4) (s : State) : Host.Outcome State Fault Refusal := .next (runGenerate Config.hw ctx s)

end Sys2Proof.Machine
end

