-- ==== Sys2Proof/Machine/Short.lean ====
section
/-! DEFINITION. The short-input persona SHORT (spec/46_short.md). -/

namespace Sys2Proof.Machine

/-- The five words SHORT permutes: `[IV_SHORT(m, t), k0, k1, m0, m1]` (R203). -/
def shortInput (cfg : Config) (t : Nat) (key msg : List Byte) : Words :=
  keyedWords (cfg.iv (shortIv msg.length t)) key (wordAt (shortMessage msg) 0) (wordAt (shortMessage msg) 1)

/-- `T16`: the key words XORed into the words SHORT_IDX selects, as bytes (R205). -/
def shortTag16 (cfg : Config) (key : List Byte) (s : Words) : List Byte :=
  bytesBe (wordAt key 0 ^^^ (selectWords cfg.shortIdx s).1) ++ bytesBe (wordAt key 1 ^^^ (selectWords cfg.shortIdx s).2)

/-- SHORT's body: build and permute the state (R203), output the first t bytes of T16 (R205), zeroize (R206). -/
def shortBody (cfg : Config) (t : BitVec 8) (key msg : List Byte) (sl : Slot) : BodyResult :=
  let permuted := permute cfg { sl with s := shortInput cfg t.toNat key msg }
  ⟨freshContext .done .short { permuted with s := Words.zero }, (shortTag16 cfg key permuted.s).take t.toNat, .none⟩

/-- SHORT cN, t, K, M (R201), in any configuration. -/
def runShort (cfg : Config) (ctx : BitVec 4) (t : BitVec 8) (key msg : List Byte) (s : State) : State :=
  frame cfg (Instr.short ctx t key msg).header (shortBody cfg t key msg) s

/-- SHORT cN, t, K, M (R201). -/
def execShort (ctx : BitVec 4) (t : BitVec 8) (key msg : List Byte) (s : State) : Host.Outcome State Fault Refusal :=
  .next (runShort Config.hw ctx t key msg s)

end Sys2Proof.Machine
end

