-- ==== Sys2Proof/Machine/Dispatch.lean ====
section
/-! DEFINITION. What each instruction does: one arm per constructor of Instr. -/

namespace Sys2Proof.Machine

def exec (i : Instr) (s : State) : Host.Outcome State Fault Refusal :=
  match i with
  | .nop => Sys2Proof.Machine.execNop s
  | .query ctx => Sys2Proof.Machine.execQuery ctx s
  | .clear ctx => Sys2Proof.Machine.execClear ctx s
  | .clone dst src => Sys2Proof.Machine.execClone dst src s
  | .initMac ctx len key => Sys2Proof.Machine.execInitMac ctx len key s
  | .initPrf ctx len key => Sys2Proof.Machine.execInitPrf ctx len key s
  | .seedPrng ctx len seed => Sys2Proof.Machine.execSeedPrng ctx len seed s
  | .absorb ctx bytes => Sys2Proof.Machine.execAbsorb ctx bytes s
  | .finalMac ctx => Sys2Proof.Machine.execFinalMac ctx s
  | .verifyMac ctx len tag => Sys2Proof.Machine.execVerifyMac ctx len tag s
  | .finalPrf ctx => Sys2Proof.Machine.execFinalPrf ctx s
  | .read ctx n => Sys2Proof.Machine.execRead ctx n s
  | .feedEnd ctx => Sys2Proof.Machine.execFeedEnd ctx s
  | .generate ctx => Sys2Proof.Machine.execGenerate ctx s
  | .short ctx t key msg => Sys2Proof.Machine.execShort ctx t key msg s

end Sys2Proof.Machine
end

