-- ==== Sys2Proof/Machine/Port.lean ====
section
/-! DEFINITION. The host port (spec/20_memory.md R53, R54; spec/70_reset_and_hazards.md R270 to R273): taking a command word
and exactly `in_len` payload bytes from what the host delivers, and one step around a given meaning of the instructions. -/

namespace Sys2Proof.Machine

/-- What comes of collecting a command's payload. -/
inductive Payload where
  /-- All bytes are there; what the host sends afterwards. -/
  | all (bytes : List Byte) (rest : List PortItem)
  /-- The host has delivered nothing more: the engine holds (R54). -/
  | waiting
  /-- Reset came first, or while the body ran: the command leaves no effect (R272, R273). -/
  | interrupted (rest : List PortItem)
  /-- A command word inside the payload (93_implementation_defined.md I10). -/
  | breach
deriving DecidableEq, Repr

/-- Take the next `n` payload bytes. -/
def takePayload : Nat → List PortItem → Payload
  | 0, [] => .all [] []
  | 0, .resetInBody :: rest => .interrupted rest
  | 0, .word w :: rest => .all [] (.word w :: rest)
  | 0, .byte b :: rest => .all [] (.byte b :: rest)
  | 0, .reset :: rest => .all [] (.reset :: rest)
  | _ + 1, [] => .waiting
  | _ + 1, .word _ :: _ => .breach
  | _ + 1, .reset :: rest => .interrupted rest
  | _ + 1, .resetInBody :: rest => .interrupted rest
  | n + 1, .byte b :: rest =>
    match takePayload n rest with
    | .all bytes rest' => .all (b :: bytes) rest'
    | .waiting => .waiting
    | .interrupted rest' => .interrupted rest'
    | .breach => .breach

/-- The items by which the host delivers one command. -/
def commandItems (w : BitVec 32) (payload : List Byte) : List PortItem := .word w :: payload.map PortItem.byte

/-- EXEC(W) on a complete command (60_exceptions.md R237): decode, then the meaning; or the fault of a word that is no
instruction. -/
def runCommand (meaning : Instr → State → Host.Outcome State Fault Refusal) (w : BitVec 32) (payload : List Byte)
    (s : State) : Host.Outcome State Fault Refusal :=
  match decode w payload with
  | .ok i => meaning i s
  | .error e => .next (frameRejected w e s)

/-- One step: the next command, from its command word to its response; or a reset; or no step. -/
def stepWith (cfg : Config) (meaning : Instr → State → Host.Outcome State Fault Refusal) (s : State) :
    Host.Outcome State Fault Refusal :=
  match s.input with
  | [] => .fault .awaitingCommand
  | .reset :: rest => .next (resetWith cfg rest s)
  | .resetInBody :: rest => .next (resetWith cfg rest s)
  | .byte _ :: _ => .refused .surplusByte
  | .word w :: items =>
    match takePayload (inLen w) items with
    | .all payload rest => runCommand meaning w payload { s with input := rest }
    | .waiting => .fault .awaitingPayload
    | .interrupted rest => .next (resetWith cfg rest s)
    | .breach => .refused .commandBeforePayload

end Sys2Proof.Machine
end

