-- ==== Sys2Proof/Machine/Step.lean ====
section
/-! DEFINITION. One step of the machine, and the delivery of one command to it. -/

namespace Sys2Proof.Machine

/-- One step of the hardware: `stepWith` at the hardware's configuration and meanings (spec/20_memory.md R53). -/
def step (s : State) : Host.Outcome State Fault Refusal := stepWith Config.hw exec s

/-- `s` with one command delivered on its port: the command word whose bits are `w`, and as many zero payload bytes as
`in_len` asks for. The command is all the port then holds (log 16). -/
def State.withFetchWord (s : State) (nbits w : Nat) : State :=
  let word := BitVec.ofNat 32 (w % 2 ^ nbits)
  { s with input := commandItems word (List.replicate (inLen word) 0) }

end Sys2Proof.Machine
end

