-- ==== Sys2Proof/Safety.lean ====
section
/-! DEFINITION. The terms in which claims are stated: the legal states (spec/10_state.md R26, R28 to R31, R35;
spec/43_mac.md R149), the next state of a completed and of a faulting command, runs of several commands, and the closed
forms the spec gives for messages, tags and output streams (spec/40_datapath.md R94; spec/43_mac.md R148;
spec/44_prf.md R164; spec/46_short.md R207). Nothing here is used by `step`. -/

namespace Sys2Proof

open Sys2Proof.Machine

/-! ### Legal states -/

/-- The (PHASE, PERSONA) pairs that are ever held (R26). -/
abbrev LegalPair (phase : Phase) (persona : Persona) : Prop :=
  (phase, persona) ∈
    [(Phase.empty, Persona.none), (.absorb, .mac), (.absorb, .prf), (.squeeze, .prf), (.done, .mac), (.done, .short),
      (.prngReady, .prng), (.prngFeed, .prng)]

/-- What every slot satisfies: a legal pair (R26); BUF zero from BUFLEN on (R28); BUFLEN positive only while input is
taken (R29); SQPOS 16 and OBUF zero but for a reader (R30, R31); an EMPTY slot is EMPTY_SLOT (R35, R110); a consumed
context keeps no state words (R149, R206). -/
abbrev LegalSlot (sl : Slot) : Prop :=
  LegalPair sl.phase sl.persona ∧
  (∀ k : Fin 32, sl.bufLen.val ≤ k.val → sl.buf[k] = 0) ∧
  (sl.bufLen.val ≠ 0 → sl.phase = .absorb ∨ sl.phase = .prngFeed) ∧
  (sl.phase ≠ .squeeze → sl.sqPos = 16 ∧ sl.obuf = Vector.replicate 16 0) ∧
  (sl.phase = .empty → sl = Slot.empty) ∧
  (sl.phase = .done → sl.s = Words.zero)

/-- What every state satisfies: N_CTX slots (R17), each legal, and the fault record empty while FAULT = 0 and not while
FAULT = 1 (R22, R23). -/
abbrev LegalState (s : State) : Prop :=
  s.slots.length = Config.hw.nCtx ∧
  (∀ sl ∈ s.slots, LegalSlot sl) ∧
  (s.fault = false → s.cause = .none ∧ s.fcmd = 0) ∧
  (s.fault = true → s.cause ≠ .none)

/-- The engine accepts commands: N_CTX slots, FAULT = 0 and CAUSE = NONE. -/
abbrev Running (s : State) : Prop := s.slots.length = Config.hw.nCtx ∧ s.fault = false ∧ s.cause = .none

/-! ### The next state of a command -/

/-- The response word of a completed command while FAULT = 0 (R55): OK = 1, the addressed slot's PHASE and PERSONA. -/
def okWord (phase : Phase) (persona : Persona) : BitVec 32 :=
  0#9 ++ personaCode persona ++ 0#1 ++ phaseCode phase ++ 0x0001#16

/-- The response word of a completed command that gives no verdict, FAULT and CAUSE as `s` holds them (R55): while
FAULT = 1 a NOP or QUERY completes with it (R101, R106). -/
def heldWord (s : State) (phase : Phase) (persona : Persona) : BitVec 32 :=
  0#9 ++ personaCode persona ++ 0#1 ++ phaseCode phase ++ causeCode s.cause ++ (if s.fault then 0x03#8 else 0x01#8)

/-- The next state of a completed command: slot `c` is `sl`, one answer more, all else as before. -/
def answered (s : State) (c : Nat) (sl : Slot) (word : BitVec 32) (out : List Byte) : State :=
  { s with slots := s.slots.set c sl, responses := s.responses ++ [⟨word, out⟩] }

/-- The next state of a command with word `w` that faults with cause `c`: the fault record, one answer more with FAULT = 1
and OK = 0 and no output, all else as before (R237). -/
def faulted (s : State) (w : BitVec 32) (c : Cause) : State :=
  { s with fault := true, cause := c, fcmd := w,
           responses := s.responses ++ [⟨0#16 ++ causeCode c ++ 0x02#8, []⟩] }

/-- The next state of a command rejected because the engine is faulted already: one answer more, all else as before
(R240). -/
def rejected (s : State) : State :=
  { s with responses := s.responses ++ [⟨0#16 ++ causeCode s.cause ++ 0x02#8, []⟩] }

/-- The state reset leaves, the host's side of the ports apart (R271). -/
def resetState (s : State) (rest : List PortItem) : State :=
  { State.reset with input := rest, responses := s.responses }

/-- Reset is what the engine meets next on its port: between commands, while a command's payload is incomplete, or while
its body runs (70_reset_and_hazards.md R270, R272; log 7). What the host sends after it is `rest`. -/
def ResetArrives (s : State) (rest : List PortItem) : Prop :=
  s.input = .reset :: rest ∨ s.input = .resetInBody :: rest ∨
  ∃ (w : BitVec 32) (payload : List Byte),
    (payload.length < inLen w ∧ s.input = commandItems w payload ++ .reset :: rest) ∨
    (payload.length ≤ inLen w ∧ s.input = commandItems w payload ++ .resetInBody :: rest)

/-- The slot number a command addresses (R63). -/
def slotOf (i : Instr) : Nat := i.header.ctx.toNat

/-- The answer a state gave last. -/
def lastResponse (s : State) : Option Response := s.responses.getLast?

/-! ### Every configuration -/

/-- An instruction's next state in any configuration; `exec` answers it for `Config.hw`. -/
def runIn (cfg : Config) : Instr → State → State
  | .nop => runNop cfg
  | .query ctx => runQuery cfg ctx
  | .clear ctx => runClear cfg ctx
  | .clone dst src => runClone cfg dst src
  | .initMac ctx len key => runInitMac cfg ctx len key
  | .initPrf ctx len key => runInitPrf cfg ctx len key
  | .seedPrng ctx len seed => runSeedPrng cfg ctx len seed
  | .absorb ctx bytes => runAbsorb cfg ctx bytes
  | .finalMac ctx => runFinalMac cfg ctx
  | .verifyMac ctx len tag => runVerifyMac cfg ctx len tag
  | .finalPrf ctx => runFinalPrf cfg ctx
  | .read ctx n => runRead cfg ctx n
  | .feedEnd ctx => runFeedEnd cfg ctx
  | .generate ctx => runGenerate cfg ctx
  | .short ctx t key msg => runShort cfg ctx t key msg

/-! ### Runs of commands -/

/-- The state after the commands of a list one after another, in any configuration. -/
def runAllIn (cfg : Config) (is : List Instr) (s : State) : State := is.foldl (fun s i => runIn cfg i s) s

/-- The commands of a list one after another, each with its meaning; nothing if one of them has no next state. -/
def execAll : List Instr → State → Option State
  | [], s => some s
  | i :: is, s =>
    match exec i s with
    | .next t => execAll is t
    | .fault _ => none
    | .refused _ => none

/-- The output bytes of the answers `t` has given since `s`, in order. -/
def outputsSince (s t : State) : List Byte := ((t.responses.drop s.responses.length).map Response.payload).flatten

/-! ### Closed forms -/

/-- The compression of one block (R88). -/
def compressWords (perm : Words → Words) (s : Words) (block : List Byte × Word) : Words :=
  perm (xorBlock s block.1 block.2)

/-- The full blocks `M[32j .. 32j+32)` of a message, j = 0 .. floor(L/32) - 1. -/
def fullBlocks (msg : List Byte) : List (List Byte) :=
  (List.range (msg.length / 32)).map fun j => (msg.drop (32 * j)).take 32

/-- The bytes of a message after its last full block. -/
def remainder (msg : List Byte) : List Byte := msg.drop (32 * (msg.length / 32))

/-- The (block, last) pairs a complete message is absorbed as (R94). -/
def paddedBlocks (msg : List Byte) : List (List Byte × Word) :=
  (fullBlocks msg).map (fun b => (b, 0)) ++
    [(remainder msg ++ [0x80] ++ List.replicate (31 - (msg.length - 32 * (msg.length / 32))) 0, 1)]

/-- The state words after the full blocks of a byte string, each with last = 0 (R121, R122). -/
def absorbFull (perm : Words → Words) (s : Words) (bytes : List Byte) : Words :=
  ((fullBlocks bytes).map fun b => (b, (0 : Word))).foldl (compressWords perm) s

/-- The state words after a complete message (R94). -/
def absorbMessage (perm : Words → Words) (s : Words) (msg : List Byte) : Words :=
  (paddedBlocks msg).foldl (compressWords perm) s

/-- The state words of a new keyed context (R87). -/
def startWords (perm : Words → Words) (iv : Word) (key : List Byte) : Words :=
  perm ⟨iv, be64 (key.take 8), be64 ((key.drop 8).take 8), 0, 0⟩

/-- The 16 output bytes of a state (R92). -/
def outputBlock (s : Words) : List Byte := bytesBe s.w0 ++ bytesBe s.w1

/-- `MAC(K, M)` (R148). -/
def macOf (cfg : Config) (key msg : List Byte) : List Byte :=
  outputBlock (absorbMessage cfg.perm (startWords cfg.perm (cfg.iv .mac) key) msg)

/-- The first `n` bytes of the stream `EXTRACT(s) ++ EXTRACT(P(s)) ++ EXTRACT(P(P(s))) ++ ...` (R164). -/
def streamOf (perm : Words → Words) (s : Words) (n : Nat) : List Byte :=
  (((List.range (n / 16 + 1)).map fun k => outputBlock (perm^[k] s)).flatten).take n

/-- The first `n` bytes of `PRF(K, M)` (R166). -/
def prfOf (cfg : Config) (key msg : List Byte) (n : Nat) : List Byte :=
  streamOf cfg.perm (absorbMessage cfg.perm (startWords cfg.perm (cfg.iv .prf) key) msg) n

/-- `SHORT(K, M, t)` (R207). -/
def shortOf (cfg : Config) (key msg : List Byte) (t : Nat) : List Byte :=
  let k0 := be64 (key.take 8)
  let k1 := be64 ((key.drop 8).take 8)
  let padded := msg ++ List.replicate (16 - msg.length) 0
  let y := cfg.perm ⟨cfg.iv (.short (Fin.ofNat 17 msg.length) (Fin.ofNat 17 t)), k0, k1, be64 (padded.take 8),
    be64 ((padded.drop 8).take 8)⟩
  match cfg.shortIdx with
  | .zeroOne => (bytesBe (k0 ^^^ y.w0) ++ bytesBe (k1 ^^^ y.w1)).take t
  | .threeFour => (bytesBe (k0 ^^^ y.w3) ++ bytesBe (k1 ^^^ y.w4)).take t

/-! ### CHECK on the command word as a number (60_exceptions.md R238), said again apart from the decoder -/

/-- OP = W[7:0] (R62). -/
def opOf (w : BitVec 32) : Nat := w.toNat % 256

/-- LEN = W[15:8] (R64). -/
def lenOf (w : BitVec 32) : Nat := w.toNat / 256 % 256

/-- AUX = W[23:16] (R65). -/
def auxOf (w : BitVec 32) : Nat := w.toNat / 65536 % 256

/-- CTX = W[27:24] (R63). -/
def ctxOf (w : BitVec 32) : Nat := w.toNat / 16777216 % 16

/-- RSVD = W[31:28] (R66). -/
def rsvdOf (w : BitVec 32) : Nat := w.toNat / 268435456

/-- The assigned OP values (R67). -/
def assignedOps : List Nat :=
  [0x00, 0x01, 0x02, 0x03, 0x10, 0x11, 0x12, 0x20, 0x30, 0x31, 0x38, 0x40, 0x50, 0x51, 0x60]

/-- The fields that must be zero, by OP (R238 step 2). -/
def mustBeZero (w : BitVec 32) : List Nat :=
  if opOf w = 0x00 then [rsvdOf w, lenOf w, auxOf w, ctxOf w]
  else if opOf w ∈ [0x01, 0x02, 0x30, 0x38, 0x50, 0x51] then [rsvdOf w, lenOf w, auxOf w]
  else if opOf w = 0x03 then [rsvdOf w, lenOf w]
  else if opOf w ∈ [0x10, 0x11, 0x12, 0x31, 0x20, 0x40] then [rsvdOf w, auxOf w]
  else [rsvdOf w]

/-- The (PHASE, PERSONA) pairs the admission table marks for an OP that does not run in every phase (R239). -/
def admittedPairs (op : Nat) : Option (List (Phase × Persona)) :=
  if op = 0x20 then some [(.absorb, .mac), (.absorb, .prf), (.prngReady, .prng), (.prngFeed, .prng)]
  else if op = 0x30 ∨ op = 0x31 then some [(.absorb, .mac)]
  else if op = 0x38 then some [(.absorb, .prf)]
  else if op = 0x40 then some [(.squeeze, .prf)]
  else if op = 0x50 then some [(.prngReady, .prng), (.prngFeed, .prng)]
  else if op = 0x51 then some [(.prngReady, .prng)]
  else none

/-- Whether the admission table marks a slot for an OP (R239). -/
def admittedIn (op : Nat) (sl : Slot) : Bool :=
  match admittedPairs op with
  | none => true
  | some pairs => (sl.phase, sl.persona) ∈ pairs

/-- CHECK(W): "tests in this order and returns the first cause that applies" (R238). -/
def checkOrder (w : BitVec 32) (s : State) : Cause :=
  if opOf w ∉ assignedOps then .illegalOpcode
  else if ∃ f ∈ mustBeZero w, f ≠ 0 then .reservedField
  else if Config.hw.nCtx ≤ ctxOf w ∨ (opOf w = 0x03 ∧ Config.hw.nCtx ≤ auxOf w) then .badSlot
  else if opOf w ∈ [0x10, 0x11, 0x12, 0x31] ∧ lenOf w ≠ 16 then .badLength
  else if opOf w = 0x60 ∧ (lenOf w > 16 ∨ auxOf w > 16) then .shortLength
  else if admittedIn (opOf w) (s.slotAt (ctxOf w)) = false then .illegalPhase
  else .none

/-- The host has delivered a whole command, and does not assert reset while its body runs. -/
def Delivers (s : State) (w : BitVec 32) (payload : List Byte) (rest : List PortItem) : Prop :=
  payload.length = inLen w ∧ s.input = commandItems w payload ++ rest ∧ rest.head? ≠ some .resetInBody

/-! ### Two states compared -/

/-- The same command addressed to slot `c`, a CLONE from the same source; NOP, which addresses none, stays. -/
def retarget (c : BitVec 4) : Instr → Instr
  | .nop => .nop
  | .query _ => .query c
  | .clear _ => .clear c
  | .clone _ src => .clone c src
  | .initMac _ len key => .initMac c len key
  | .initPrf _ len key => .initPrf c len key
  | .seedPrng _ len seed => .seedPrng c len seed
  | .absorb _ bytes => .absorb c bytes
  | .finalMac _ => .finalMac c
  | .verifyMac _ len tag => .verifyMac c len tag
  | .finalPrf _ => .finalPrf c
  | .read _ n => .read c n
  | .feedEnd _ => .feedEnd c
  | .generate _ => .generate c
  | .short _ t key msg => .short c t key msg

/-- What QUERY shows of a slot (R106): its control fields. -/
def slotStatus (sl : Slot) : Phase × Persona × Fin 32 × Fin 17 := (sl.phase, sl.persona, sl.bufLen, sl.sqPos)

/-- Two states that differ in the contents of S, BUF and OBUF alone, and in what was answered. -/
def SameStatus (s₁ s₂ : State) : Prop :=
  s₁.slots.map slotStatus = s₂.slots.map slotStatus ∧ s₁.fault = s₂.fault ∧ s₁.cause = s₂.cause ∧ s₁.fcmd = s₂.fcmd

/-- A slot with the state words of no context forgotten: those of an EMPTY or DONE slot (R33). -/
def forgetDeadWords (sl : Slot) : Slot :=
  if sl.phase = .empty ∨ sl.phase = .done then { sl with s := Words.zero } else sl

/-- Two states that differ in the state words of EMPTY and DONE slots alone. -/
def SameLiveState (s₁ s₂ : State) : Prop :=
  s₁.slots.map forgetDeadWords = s₂.slots.map forgetDeadWords ∧ s₁.fault = s₂.fault ∧ s₁.cause = s₂.cause ∧
    s₁.fcmd = s₂.fcmd ∧ s₁.responses = s₂.responses

end Sys2Proof
end

