-- ==== Sys2Proof/Certificates/Slice0/Obligations.lean ====
section
/-! DEFINITION. The statements about SPONGE-CORE, one `def Obligations.<Name> : Prop` each; OBLIGATIONS.json lists them with
the rules they formalise. They are stated at `Config.hw`, whose parameters are opaque: each holds whatever P, the IVs,
SHORT_IDX and N_CTX are (spec/00_scope.md R6). Where a statement speaks of what the host has still to deliver or has
received (`Delivers`, `input`, `responses`), the rules are the spec's and the list form of the two ports is the model's
choice (log 4). -/

open Sys2Proof Sys2Proof.Machine

/-! ### Encoding -/

/-- 30_encoding.md R61 to R67, R77: decoding inverts encoding, for every well-formed command with every operand, on the
command port and in the serialized form. -/
def Obligations.DecodingInvertsEncoding : Prop :=
  ∀ i : Instr, i.wf = true →
    inLen i.word = i.payload.length ∧ decode i.word i.payload = .ok i ∧
      ∀ rest, decodeBytes (encodeBytes i ++ rest) = .ok (i, rest)

/-- R61 to R67, R77: encoding inverts decoding, so that no two commands share a word and no bit of a word is dropped. -/
def Obligations.EncodingInvertsDecoding : Prop :=
  ∀ (w : BitVec 32) (payload : List Byte) (i : Instr), payload.length = inLen w → decode w payload = .ok i →
    i.wf = true ∧ encode i = (w, payload)

/-- R78: the illegal OP values are exactly the listed ranges, and each faults with ILLEGAL_OPCODE. -/
def Obligations.UnassignedOpcodesFault : Prop :=
  ∀ w : BitVec 32,
    (opOf w ∉ assignedOps ↔
      0x04 ≤ opOf w ∧ opOf w ≤ 0x0F ∨ 0x13 ≤ opOf w ∧ opOf w ≤ 0x1F ∨ 0x21 ≤ opOf w ∧ opOf w ≤ 0x2F ∨
        0x32 ≤ opOf w ∧ opOf w ≤ 0x37 ∨ 0x39 ≤ opOf w ∧ opOf w ≤ 0x3F ∨ 0x41 ≤ opOf w ∧ opOf w ≤ 0x4F ∨
        0x52 ≤ opOf w ∧ opOf w ≤ 0x5F ∨ 0x61 ≤ opOf w ∧ opOf w ≤ 0xFF) ∧
    ∀ (s : State) (payload : List Byte) (rest : List PortItem), opOf w ∉ assignedOps → s.fault = false →
      Delivers s w payload rest → step s = .next (faulted { s with input := rest } w .illegalOpcode)

/-- R66: for every command, RSVD and the fields that R63 to R65 say must be 0 are; a word in which one is not faults with
RESERVED_FIELD. -/
def Obligations.ReservedFieldsFault : Prop :=
  ∀ (w : BitVec 32) (s : State) (payload : List Byte) (rest : List PortItem), opOf w ∈ assignedOps → s.fault = false →
    Delivers s w payload rest → (∃ f ∈ mustBeZero w, f ≠ 0) →
    step s = .next (faulted { s with input := rest } w .reservedField)

/-- R84: the fifteen worked encodings, each read back. -/
def Obligations.WorkedEncodings : Prop :=
  ∀ (key tag bytes : List Byte), bytes.length = 255 →
    decode 0x00000000 [] = .ok .nop ∧
    decode 0x02000001 [] = .ok (.query 2) ∧
    decode 0x01000003 [] = .ok (.clone 1 0) ∧
    decode 0x00001010 key = .ok (.initMac 0 16 key) ∧
    decode 0x03001011 key = .ok (.initPrf 3 16 key) ∧
    decode 0x01001012 key = .ok (.seedPrng 1 16 key) ∧
    decode 0x00000320 [0x61, 0x62, 0x63] = .ok (.absorb 0 [0x61, 0x62, 0x63]) ∧
    (inLen 0x0000FF20 = bytes.length ∧ decode 0x0000FF20 bytes = .ok (.absorb 0 bytes)) ∧
    decode 0x00000030 [] = .ok (.finalMac 0) ∧
    decode 0x00001031 tag = .ok (.verifyMac 0 16 tag) ∧
    decode 0x03000038 [] = .ok (.finalPrf 3) ∧
    decode 0x03001440 [] = .ok (.read 3 20) ∧
    decode 0x01000050 [] = .ok (.feedEnd 1) ∧
    decode 0x01000051 [] = .ok (.generate 1) ∧
    decode 0x00100560 (key.take 16 ++ key.drop 16) = .ok (.short 0 16 (key.take 16) (key.drop 16))

/-- R77: `in_len(W)` for all words, and the engine takes that many bytes whether it then rejects the command or not. -/
def Obligations.PayloadLengthIsTotal : Prop :=
  ∀ w : BitVec 32,
    inLen w =
      (if opOf w ∈ [0x10, 0x11, 0x12, 0x31] then 16
       else if opOf w = 0x20 then lenOf w
       else if opOf w = 0x60 then 16 + lenOf w
       else 0) ∧
    ∀ (s : State) (payload : List Byte) (rest : List PortItem), Delivers s w payload rest →
      ∃ t, step s = .next t ∧ t.input = rest

/-- opcode_table.json: a word that matches a row's mask and match value has that row's opcode and passes the decoder, and
no word matches two rows. -/
def Obligations.OpcodeTableRows : Prop :=
  ∀ (o o' : Opcode) (w : BitVec 32), w &&& o.tableMask = o.tableMatch →
    (∃ h, Header.ofWord w = .ok h ∧ h.op = o) ∧ (w &&& o'.tableMask = o'.tableMatch → o' = o)

/-- R83 (as lists of commands, log 18): the pieces of ABSORB_ALL and READ_ALL, in order, none empty, all 255 long but the last, and nothing lost. -/
def Obligations.PseudoCommandPieces : Prop :=
  (∀ (ctx : BitVec 4) (bytes : List Byte), ∃ pieces : List (List Byte),
    (Pseudo.absorbAll ctx bytes).expand = pieces.map (Instr.absorb ctx) ∧ pieces.flatten = bytes ∧
      (∀ p ∈ pieces, 1 ≤ p.length ∧ p.length ≤ 255) ∧ ∀ p ∈ pieces.dropLast, p.length = 255) ∧
  (∀ (ctx : BitVec 4) (n : Nat), ∃ counts : List (BitVec 8),
    (Pseudo.readAll ctx n).expand = counts.map (Instr.read ctx) ∧ (counts.map BitVec.toNat).sum = n ∧
      (∀ k ∈ counts, 1 ≤ k.toNat) ∧ ∀ k ∈ counts.dropLast, k = 255)

/-- R82: a line the assembler accepts is never a faulting word by itself: the engine can object to the slot or to its phase
alone. -/
def Obligations.AssembledCommandsKeepTheFormat : Prop :=
  ∀ i : Instr, i.assembles = true →
    i.wf = true ∧ ∀ s t : State, Running s → exec i s = .next t → t.fault = true →
      t.cause = .badSlot ∨ t.cause = .illegalPhase

/-! ### The transaction and reset -/

/-- 20_memory.md R53, 60_exceptions.md R237: when a whole command has been delivered and its word and payload decode to an
instruction, the step is that instruction's meaning, on the state with the command taken off the port. -/
def Obligations.StepRunsTheDecodedInstruction : Prop :=
  ∀ (s : State) (w : BitVec 32) (payload : List Byte) (rest : List PortItem) (i : Instr), Delivers s w payload rest →
    decode w payload = .ok i → step s = exec i { s with input := rest }

/-- 10_state.md R16, 20_memory.md R53: every whole command has a next state and gets exactly one answer, whether it
completes or is rejected; so the number of answers counts the commands. -/
def Obligations.EveryCommandIsAnsweredOnce : Prop :=
  (∀ (i : Instr) (s : State), ∃ t r, exec i s = .next t ∧ t.responses = s.responses ++ [r] ∧ t.input = s.input) ∧
  ∀ (s : State) (w : BitVec 32) (payload : List Byte) (rest : List PortItem), Delivers s w payload rest →
    ∃ t r, step s = .next t ∧ t.responses = s.responses ++ [r] ∧ t.input = rest

/-- R54: while the input payload is incomplete the engine holds, whatever the command is and however many of its bytes are
there; it has no step. That the model says so by a fault of this name is its own choice (log 5). -/
def Obligations.IncompletePayloadHolds : Prop :=
  ∀ (s : State) (w : BitVec 32) (payload : List Byte), payload.length < inLen w →
    s.input = commandItems w payload → step s = .fault .awaitingPayload

/-- 70_reset_and_hazards.md R270 to R273: reset between commands, while the engine holds, and while a body runs; in each
case every field has its reset value, the unfinished command leaves no effect and no answer, and what the host sends next
is taken as a new command. That reset is an item among the host's items is the model's choice (log 7). -/
def Obligations.ResetAtAnyTime : Prop :=
  ∀ (s : State) (rest : List PortItem),
    (s.input = .reset :: rest → step s = .next (resetState s rest)) ∧
    (∀ (w : BitVec 32) (payload : List Byte), payload.length < inLen w →
      s.input = commandItems w payload ++ .reset :: rest → step s = .next (resetState s rest)) ∧
    (∀ (w : BitVec 32) (payload : List Byte), payload.length = inLen w →
      s.input = commandItems w payload ++ .resetInBody :: rest → step s = .next (resetState s rest))

/-- 10_state.md R34, R35: the value of every field after reset. -/
def Obligations.ResetValues : Prop :=
  (State.reset.slots.length = Config.hw.nCtx ∧ 1 ≤ Config.hw.nCtx ∧ Config.hw.nCtx ≤ 16) ∧
  (∀ sl ∈ State.reset.slots,
    sl.s = ⟨0, 0, 0, 0, 0⟩ ∧ sl.buf.toList = List.replicate 32 0 ∧ sl.bufLen.val = 0 ∧
      sl.obuf.toList = List.replicate 16 0 ∧ sl.sqPos.val = 16 ∧ phaseCode sl.phase = 0 ∧ personaCode sl.persona = 0) ∧
  State.reset.fault = false ∧ causeCode State.reset.cause = 0x00 ∧ State.reset.fcmd = 0x00000000

/-! ### Faults -/

/-- 60_exceptions.md R237, R238: on an engine that is not faulted, a command that CHECK objects to faults with the first
cause that applies, records it and its word, and changes no slot; a command that CHECK passes is an instruction and
completes. -/
def Obligations.CheckOrder : Prop :=
  ∀ (s : State) (w : BitVec 32) (payload : List Byte) (rest : List PortItem), Running s → Delivers s w payload rest →
    (checkOrder w s ≠ .none → step s = .next (faulted { s with input := rest } w (checkOrder w s))) ∧
    (checkOrder w s = .none →
      ∃ i t, decode w payload = .ok i ∧ step s = .next t ∧ t.fault = false ∧ t.cause = .none ∧
        ∃ r, t.responses = s.responses ++ [r] ∧ r.word.getLsbD 0 = true)

/-- R239: with a slot that exists, and operands that fit, a command completes just when the slot's phase and persona admit
it, and otherwise faults ILLEGAL_PHASE. -/
def Obligations.PhaseAdmission : Prop :=
  ∀ (i : Instr) (s : State), Running s → i.assembles = true → slotOf i < Config.hw.nCtx →
    (∀ dst src, i = .clone dst src → src.toNat < Config.hw.nCtx) →
    (admittedIn (opOf i.word) (s.slotAt (slotOf i)) = true → ∃ t, exec i s = .next t ∧ t.fault = false) ∧
    (admittedIn (opOf i.word) (s.slotAt (slotOf i)) = false → exec i s = .next (faulted s i.word .illegalPhase))

/-- R240: while FAULT = 1 every command is rejected with no effect, but a NOP or a QUERY that passes CHECK. -/
def Obligations.FaultedEngineRejects : Prop :=
  ∀ (s : State) (w : BitVec 32) (payload : List Byte) (rest : List PortItem), s.slots.length = Config.hw.nCtx →
    s.fault = true → Delivers s w payload rest →
    ((opOf w ≠ 0x00 ∧ opOf w ≠ 0x01) ∨ checkOrder w s ≠ .none →
      step s = .next (rejected { s with input := rest })) ∧
    ((opOf w = 0x00 ∨ opOf w = 0x01) ∧ checkOrder w s = .none →
      ∃ r, step s = .next { s with input := rest, responses := s.responses ++ [r] } ∧ r.word.getLsbD 0 = true ∧
        r.word.getLsbD 1 = true ∧ r.word.extractLsb' 8 8 = causeCode s.cause)

/-- R242: no command clears FAULT, and CAUSE and FCMD always describe the first violation; only the reset that the port
holds next clears them. While faulted, no slot changes either. -/
def Obligations.FaultIsStickyUntilReset : Prop :=
  ∀ s t : State, s.fault = true → step s = .next t →
    (t.fault = true ∧ t.cause = s.cause ∧ t.fcmd = s.fcmd ∧ t.slots = s.slots) ∨
    (∃ rest, ResetArrives s rest ∧ t = resetState s rest)

/-- R241, R237: a step that raises a fault is one whole command, and changes no slot and nothing but FAULT, CAUSE, FCMD and
the ports. -/
def Obligations.FaultsArePrecise : Prop :=
  ∀ s t : State, s.slots.length = Config.hw.nCtx → s.fault = false → step s = .next t → t.fault = true →
    ∃ w payload rest, payload.length = inLen w ∧ s.input = commandItems w payload ++ rest ∧ checkOrder w s ≠ .none ∧
      t = faulted { s with input := rest } w (checkOrder w s)

/-! ### Invariants -/

/-- 10_state.md R26: only the eight (PHASE, PERSONA) pairs are ever held: they are at reset, and every step preserves
this. -/
def Obligations.PhasePersonaPairs : Prop :=
  (∀ sl ∈ State.reset.slots, LegalPair sl.phase sl.persona) ∧
  ∀ s t : State, (∀ sl ∈ s.slots, LegalPair sl.phase sl.persona) → step s = .next t →
    ∀ sl ∈ t.slots, LegalPair sl.phase sl.persona

/-- R17, R22, R23, R26, R28 to R31, R35, 43_mac.md R149: every step keeps the state legal. -/
def Obligations.EveryStepKeepsTheStateLegal : Prop := ∀ s t : State, LegalState s → step s = .next t → LegalState t

/-- The reset state is legal. -/
def Obligations.ResetIsLegal : Prop := LegalState State.reset

/-! ### Slots apart -/

/-- R17, 20_memory.md R46: a command writes no slot but the one it addresses, keeps their number, and does not touch what
the host has still to send; and it changes the fault record only when it raises a fault. -/
def Obligations.OtherSlotsUnchanged : Prop :=
  ∀ (i : Instr) (s t : State), exec i s = .next t →
    t.slots.length = s.slots.length ∧ (∀ c, c ≠ slotOf i → t.slotAt c = s.slotAt c) ∧ t.input = s.input ∧
      (t.fault = s.fault → t.cause = s.cause ∧ t.fcmd = s.fcmd)

/-- R17, 40_datapath.md R96: a command reads no slot but the one it addresses, and CLONE its source. -/
def Obligations.OtherSlotsUnread : Prop :=
  ∀ (i : Instr) (s₁ s₂ t₁ t₂ : State), s₁.slots.length = s₂.slots.length →
    s₁.slotAt (slotOf i) = s₂.slotAt (slotOf i) →
    (∀ dst src, i = .clone dst src → s₁.slotAt src.toNat = s₂.slotAt src.toNat) →
    s₁.fault = s₂.fault → s₁.cause = s₂.cause → s₁.fcmd = s₂.fcmd → s₁.responses = s₂.responses →
    exec i s₁ = .next t₁ → exec i s₂ = .next t₂ →
    t₁.responses = t₂.responses ∧ t₁.slotAt (slotOf i) = t₂.slotAt (slotOf i) ∧ t₁.fault = t₂.fault ∧
      t₁.cause = t₂.cause ∧ t₁.fcmd = t₂.fcmd

/-- 41_context.md R114, R115, 10_state.md R17: after a CLONE onto another slot, both slots hold the source's context, the
same commands addressed to either, up to and including the first that faults, get the same answers and leave its slot alike,
and neither slot feels the other's commands. (A later CLONE among them is from a third slot; NOP addresses slot 0 whatever
is meant; after a fault a QUERY shows FCMD, which holds the slot number of the faulting word.) Stated in every
configuration, since one with N_CTX = 1 has no second slot; `exec` is the hardware's. -/
def Obligations.ClonesAreEqualAndIndependent : Prop :=
  (∀ (i : Instr) (s : State), exec i s = .next (runIn Config.hw i s)) ∧
  ∀ (cfg : Config) (s : State) (dst src : BitVec 4), s.slots.length = cfg.nCtx → s.fault = false →
    dst.toNat < cfg.nCtx → src.toNat < cfg.nCtx → dst ≠ src →
    ∀ t, t = runIn cfg (.clone dst (src.setWidth 8)) s →
      t.fault = false ∧ t.slotAt dst.toNat = s.slotAt src.toNat ∧ t.slotAt src.toNat = s.slotAt src.toNat ∧
      ∀ (is : List Instr) (i : Instr) (u v : State),
        (∀ j ∈ is ++ [i], j ≠ .nop ∧ ∀ d a, j = .clone d a → a.toNat ≠ dst.toNat ∧ a.toNat ≠ src.toNat) →
        (runAllIn cfg (is.map (retarget dst)) t).fault = false →
        u = runAllIn cfg ((is ++ [i]).map (retarget dst)) t → v = runAllIn cfg ((is ++ [i]).map (retarget src)) t →
        u.responses = v.responses ∧ u.slotAt dst.toNat = v.slotAt src.toNat ∧
          u.slotAt src.toNat = t.slotAt src.toNat ∧ v.slotAt dst.toNat = t.slotAt dst.toNat

/-- 41_context.md R115: from a CLONE on, whatever commands follow it to whatever slots, those addressed to one of its two
slots do not affect the other: with all of them taken out of the run, every other slot is left alike, and every other
command gets the same answer and faults alike. FAULT is the engine's, not a slot's, so the run is one without a fault up to
the command compared; and a later CLONE out of the slot whose commands are taken out begins a new copy of it, which R17
makes the one exception. Stated in every configuration, since one with N_CTX = 1 has no second slot. -/
def Obligations.ClonesDoNotAffectEachOther : Prop :=
  ∀ (cfg : Config) (s t : State) (dst src : BitVec 4), s.slots.length = cfg.nCtx → s.fault = false →
    dst.toNat < cfg.nCtx → src.toNat < cfg.nCtx → dst ≠ src → t = runIn cfg (.clone dst (src.setWidth 8)) s →
    ∀ (gone : Nat) (later kept : List Instr) (i : Instr), gone = dst.toNat ∨ gone = src.toNat →
      (∀ d a, Instr.clone d a ∈ later ++ [i] → a.toNat = gone → d.toNat = gone) →
      (runAllIn cfg later t).fault = false → kept = later.filter (fun j => slotOf j ≠ gone) → slotOf i ≠ gone →
      (runAllIn cfg kept t).fault = false ∧
      (runAllIn cfg (kept ++ [i]) t).fault = (runAllIn cfg (later ++ [i]) t).fault ∧
      (runAllIn cfg (kept ++ [i]) t).cause = (runAllIn cfg (later ++ [i]) t).cause ∧
      (∀ c, c ≠ gone → (runAllIn cfg (kept ++ [i]) t).slotAt c = (runAllIn cfg (later ++ [i]) t).slotAt c) ∧
      lastResponse (runAllIn cfg (kept ++ [i]) t) = lastResponse (runAllIn cfg (later ++ [i]) t)

/-- 10_state.md R15, R32: what a command does to the control fields and the fault record never depends on S, BUF or OBUF;
and what the host receives does not either, but for READ, FINAL_MAC, GENERATE and VERIFY_MAC. -/
def Obligations.SecretsShowOnlyThroughOutputs : Prop :=
  ∀ (i : Instr) (s₁ s₂ t₁ t₂ : State), SameStatus s₁ s₂ → exec i s₁ = .next t₁ → exec i s₂ = .next t₂ →
    SameStatus t₁ t₂ ∧
    ((∀ c, i ≠ .finalMac c) → (∀ c len tag, i ≠ .verifyMac c len tag) → (∀ c n, i ≠ .read c n) →
      (∀ c, i ≠ .generate c) → s₁.responses = s₂.responses → t₁.responses = t₂.responses)

/-- 10_state.md R33: the state words of a slot that holds no context are never output, now or later: two states that differ
in them alone get the same answer from every command, and still differ in such words alone. -/
def Obligations.DeadWordsAreNeverOutput : Prop :=
  ∀ (i : Instr) (s₁ s₂ t₁ t₂ : State), SameLiveState s₁ s₂ → exec i s₁ = .next t₁ → exec i s₂ = .next t₂ →
    SameLiveState t₁ t₂

/-! ### The commands: what each leaves, with its frame -/

/-- 41_context.md R101: NOP completes and changes nothing but the answers, whether FAULT is 0 or 1; FAULT and CAUSE of the
answer are the ones held. -/
def Obligations.NopOnlyAnswers : Prop :=
  ∀ s : State, s.slots.length = Config.hw.nCtx →
    exec .nop s =
      .next { s with responses := s.responses ++ [⟨heldWord s (s.slotAt 0).phase (s.slotAt 0).persona, []⟩] }

/-- 41_context.md R106: QUERY's twelve bytes, whether FAULT is 0 or 1; FAULT and CAUSE of the answer are the ones held. It
changes nothing but the answers. -/
def Obligations.QueryReportsStatus : Prop :=
  ∀ (s : State) (ctx : BitVec 4) (sl : Slot), s.slots.length = Config.hw.nCtx → ctx.toNat < Config.hw.nCtx →
    s.slotAt ctx.toNat = sl →
    exec (.query ctx) s =
      .next { s with
        responses := s.responses ++
          [⟨heldWord s sl.phase sl.persona,
            [(phaseCode sl.phase).setWidth 8, (personaCode sl.persona).setWidth 8, BitVec.ofNat 8 sl.bufLen.val,
              BitVec.ofNat 8 sl.sqPos.val, BitVec.ofNat 8 Config.hw.nCtx, 0x80,
              (match Config.hw.shortIdx with
                | .zeroOne => 0x00
                | .threeFour => 0x01), 0x01,
              s.fcmd.extractLsb' 24 8, s.fcmd.extractLsb' 16 8, s.fcmd.extractLsb' 8 8, s.fcmd.extractLsb' 0 8]⟩] }

/-- 41_context.md R110: CLEAR leaves EMPTY_SLOT. -/
def Obligations.ClearEmptiesTheSlot : Prop :=
  ∀ (s : State) (ctx : BitVec 4), Running s → ctx.toNat < Config.hw.nCtx →
    exec (.clear ctx) s =
      .next (answered s ctx.toNat
        ⟨⟨0, 0, 0, 0, 0⟩, Vector.replicate 32 0, 0, Vector.replicate 16 0, 16, .empty, .none⟩ 0x00000001 [])

/-- 41_context.md R114: CLONE copies all seven fields; a source that is no slot faults BAD_SLOT. -/
def Obligations.CloneCopiesTheSlot : Prop :=
  ∀ (s : State) (dst : BitVec 4) (src : BitVec 8), Running s → dst.toNat < Config.hw.nCtx →
    (src.toNat < Config.hw.nCtx →
      exec (.clone dst src) s =
        .next (answered s dst.toNat (s.slotAt src.toNat)
          (okWord (s.slotAt src.toNat).phase (s.slotAt src.toNat).persona) [])) ∧
    (Config.hw.nCtx ≤ src.toNat → exec (.clone dst src) s = .next (faulted s (Instr.clone dst src).word .badSlot))

/-- 43_mac.md R141, 44_prf.md R155, 45_prng.md R170, 40_datapath.md R87: INIT_MAC, INIT_PRF and SEED_PRNG build the same
fresh context but for the IV, the phase and the persona, in whatever phase the slot was (43_mac.md R142); another LEN than
16 faults BAD_LENGTH. -/
def Obligations.InitStartsAFreshContext : Prop :=
  ∀ (s : State) (ctx : BitVec 4) (len : BitVec 8) (key : List Byte), Running s → ctx.toNat < Config.hw.nCtx →
    (len = 16 →
      exec (.initMac ctx len key) s =
        .next (answered s ctx.toNat
          ⟨startWords Config.hw.perm (Config.hw.iv .mac) key, Vector.replicate 32 0, 0, Vector.replicate 16 0, 16,
            .absorb, .mac⟩ 0x00110001 []) ∧
      exec (.initPrf ctx len key) s =
        .next (answered s ctx.toNat
          ⟨startWords Config.hw.perm (Config.hw.iv .prf) key, Vector.replicate 32 0, 0, Vector.replicate 16 0, 16,
            .absorb, .prf⟩ 0x00210001 []) ∧
      exec (.seedPrng ctx len key) s =
        .next (answered s ctx.toNat
          ⟨startWords Config.hw.perm (Config.hw.iv .prng) key, Vector.replicate 32 0, 0, Vector.replicate 16 0, 16,
            .prngReady, .prng⟩ 0x00340001 [])) ∧
    (len ≠ 16 →
      exec (.initMac ctx len key) s = .next (faulted s (Instr.initMac ctx len key).word .badLength) ∧
      exec (.initPrf ctx len key) s = .next (faulted s (Instr.initPrf ctx len key).word .badLength) ∧
      exec (.seedPrng ctx len key) s = .next (faulted s (Instr.seedPrng ctx len key).word .badLength))

/-- 42_absorb.md R121 to R123: ABSORB compresses the full blocks of the buffered and the new bytes, floor((b + n) / 32) of
them, each with last = 0, and keeps the remaining (b + n) mod 32 in BUF with zeros behind them; a PRNG slot is PRNG_FEED
afterwards; OBUF, SQPOS and PERSONA stay. The premise on BUF is R28. -/
def Obligations.AbsorbAppendsTheBytes : Prop :=
  ∀ (s : State) (ctx : BitVec 4) (bytes : List Byte) (sl : Slot), Running s → ctx.toNat < Config.hw.nCtx →
    s.slotAt ctx.toNat = sl → (∀ k : Fin 32, sl.bufLen.val ≤ k.val → sl.buf[k] = 0) →
    (sl.phase, sl.persona) ∈
      [(Phase.absorb, Persona.mac), (.absorb, .prf), (.prngReady, .prng), (.prngFeed, .prng)] →
    ∃ sl' : Slot,
      exec (.absorb ctx bytes) s = .next (answered s ctx.toNat sl' (okWord sl'.phase sl'.persona) []) ∧
      sl'.s = absorbFull Config.hw.perm sl.s (sl.buf.toList.take sl.bufLen.val ++ bytes) ∧
      (fullBlocks (sl.buf.toList.take sl.bufLen.val ++ bytes)).length = (sl.bufLen.val + bytes.length) / 32 ∧
      sl'.bufLen.val = (sl.bufLen.val + bytes.length) % 32 ∧
      sl'.buf.toList =
        remainder (sl.buf.toList.take sl.bufLen.val ++ bytes) ++ List.replicate (32 - sl'.bufLen.val) 0 ∧
      sl'.obuf = sl.obuf ∧ sl'.sqPos = sl.sqPos ∧ sl'.persona = sl.persona ∧
      sl'.phase = (if sl.persona = .prng then .prngFeed else .absorb)

/-- 43_mac.md R144: FINAL_MAC absorbs the padded block with last = 1, returns the 16 bytes of words 0 and 1 of the result
with no further permutation, and leaves the slot zeroed and DONE. -/
def Obligations.FinalMacReturnsTheTag : Prop :=
  ∀ (s : State) (ctx : BitVec 4) (sl : Slot), Running s → ctx.toNat < Config.hw.nCtx → s.slotAt ctx.toNat = sl →
    sl.phase = .absorb → sl.persona = .mac →
    exec (.finalMac ctx) s =
      .next (answered s ctx.toNat
        ⟨⟨0, 0, 0, 0, 0⟩, Vector.replicate 32 0, 0, sl.obuf, sl.sqPos, .done, .mac⟩ 0x00130001
        (outputBlock (Config.hw.perm (xorBlock sl.s
          (sl.buf.toList.take sl.bufLen.val ++ [0x80] ++ List.replicate (31 - sl.bufLen.val) 0) 1))))

/-- 43_mac.md R147: VERIFY_MAC answers VPASS just when the expected tag is FINAL_MAC's tag, and VFAIL otherwise, returns no
byte of it, is no fault either way, and leaves the slot zeroed and DONE; another LEN than 16 faults BAD_LENGTH. -/
def Obligations.VerifyMacComparesTheTag : Prop :=
  ∀ (s : State) (ctx : BitVec 4) (len : BitVec 8) (tag : List Byte) (sl : Slot), Running s →
    ctx.toNat < Config.hw.nCtx → s.slotAt ctx.toNat = sl → sl.phase = .absorb → sl.persona = .mac → tag.length = 16 →
    (len = 16 →
      exec (.verifyMac ctx len tag) s =
        .next (answered s ctx.toNat
          ⟨⟨0, 0, 0, 0, 0⟩, Vector.replicate 32 0, 0, sl.obuf, sl.sqPos, .done, .mac⟩
          (if tag = outputBlock (Config.hw.perm (xorBlock sl.s
              (sl.buf.toList.take sl.bufLen.val ++ [0x80] ++ List.replicate (31 - sl.bufLen.val) 0) 1))
            then 0x00130005 else 0x00130009) [])) ∧
    (len ≠ 16 → exec (.verifyMac ctx len tag) s = .next (faulted s (Instr.verifyMac ctx len tag).word .badLength))

/-- 44_prf.md R158: FINAL_PRF absorbs the padded block with last = 1 and starts a reader with no block extracted. -/
def Obligations.FinalPrfStartsTheReader : Prop :=
  ∀ (s : State) (ctx : BitVec 4) (sl : Slot), Running s → ctx.toNat < Config.hw.nCtx → s.slotAt ctx.toNat = sl →
    sl.phase = .absorb → sl.persona = .prf →
    exec (.finalPrf ctx) s =
      .next (answered s ctx.toNat
        ⟨Config.hw.perm (xorBlock sl.s
            (sl.buf.toList.take sl.bufLen.val ++ [0x80] ++ List.replicate (31 - sl.bufLen.val) 0) 1),
          Vector.replicate 32 0, 0, Vector.replicate 16 0, 16, .squeeze, .prf⟩ 0x00220001 [])

/-- 44_prf.md R161, R163: READ gives first the undelivered bytes of OBUF, then the stream of S; it permutes once for each
block it extracts and no more, and keeps what it has not delivered. -/
def Obligations.ReadDeliversTheNextBytes : Prop :=
  ∀ (s : State) (ctx : BitVec 4) (n : BitVec 8) (sl : Slot), Running s → ctx.toNat < Config.hw.nCtx →
    s.slotAt ctx.toNat = sl → sl.phase = .squeeze → sl.persona = .prf →
    ∃ sl' : Slot,
      exec (.read ctx n) s =
        .next (answered s ctx.toNat sl' 0x00220001
          ((sl.obuf.toList.drop sl.sqPos.val ++ streamOf Config.hw.perm sl.s n.toNat).take n.toNat)) ∧
      sl'.s = Config.hw.perm^[(n.toNat - (16 - sl.sqPos.val) + 15) / 16] sl.s ∧
      (n.toNat ≤ 16 - sl.sqPos.val → sl'.obuf = sl.obuf ∧ sl'.sqPos.val = sl.sqPos.val + n.toNat) ∧
      (16 - sl.sqPos.val < n.toNat →
        sl'.obuf.toList =
          outputBlock (Config.hw.perm^[(n.toNat - (16 - sl.sqPos.val) - 1) / 16] sl.s) ∧
        sl'.sqPos.val = (n.toNat - (16 - sl.sqPos.val) - 1) % 16 + 1) ∧
      sl'.buf = sl.buf ∧ sl'.bufLen = sl.bufLen ∧ sl'.phase = .squeeze ∧ sl'.persona = .prf

/-- 45_prng.md R174: FEED_END absorbs the padded block with last = 1, also when nothing was fed. -/
def Obligations.FeedEndPadsTheEntropy : Prop :=
  ∀ (s : State) (ctx : BitVec 4) (sl : Slot), Running s → ctx.toNat < Config.hw.nCtx → s.slotAt ctx.toNat = sl →
    sl.phase = .prngReady ∨ sl.phase = .prngFeed → sl.persona = .prng →
    exec (.feedEnd ctx) s =
      .next (answered s ctx.toNat
        ⟨Config.hw.perm (xorBlock sl.s
            (sl.buf.toList.take sl.bufLen.val ++ [0x80] ++ List.replicate (31 - sl.bufLen.val) 0) 1),
          Vector.replicate 32 0, 0, sl.obuf, sl.sqPos, .prngReady, .prng⟩ 0x00340001 [])

/-- 45_prng.md R178: GENERATE returns words 0 and 1 and then permutes. -/
def Obligations.GenerateOutputsThenPermutes : Prop :=
  ∀ (s : State) (ctx : BitVec 4) (sl : Slot), Running s → ctx.toNat < Config.hw.nCtx → s.slotAt ctx.toNat = sl →
    sl.phase = .prngReady → sl.persona = .prng →
    exec (.generate ctx) s =
      .next (answered s ctx.toNat { sl with s := Config.hw.perm sl.s } 0x00340001
        (bytesBe sl.s.w0 ++ bytesBe sl.s.w1))

/-- 46_short.md R201, R203, R205 to R207: SHORT is the function `SHORT(K, M, t)` of its operands alone, in whatever phase the
slot was, and leaves the slot zeroed and DONE; a message or tag longer than 16 bytes faults SHORT_LENGTH. -/
def Obligations.ShortIsAFunctionOfItsOperands : Prop :=
  ∀ (s : State) (ctx : BitVec 4) (t : BitVec 8) (key msg : List Byte), Running s → ctx.toNat < Config.hw.nCtx →
    key.length = 16 → msg.length ≤ 255 →
    (msg.length ≤ 16 → t.toNat ≤ 16 →
      exec (.short ctx t key msg) s =
        .next (answered s ctx.toNat
          ⟨⟨0, 0, 0, 0, 0⟩, Vector.replicate 32 0, 0, Vector.replicate 16 0, 16, .done, .short⟩ 0x00430001
          (shortOf Config.hw key msg t.toNat))) ∧
    (16 < msg.length ∨ 16 < t.toNat →
      exec (.short ctx t key msg) s = .next (faulted s (Instr.short ctx t key msg).word .shortLength))

/-- 20_memory.md R47: a second CLEAR of a slot changes nothing, and a CLONE of a slot onto itself changes nothing. -/
def Obligations.ClearAndSelfCloneAreIdempotent : Prop :=
  ∀ (s : State) (ctx : BitVec 4), Running s → ctx.toNat < Config.hw.nCtx →
    (∃ t u, exec (.clear ctx) s = .next t ∧ exec (.clear ctx) t = .next u ∧ u.slots = t.slots ∧ u.fault = t.fault) ∧
    (∃ t, exec (.clone ctx (ctx.setWidth 8)) s = .next t ∧ t.slots = s.slots ∧ t.fault = s.fault)

/-! ### The response -/

/-- 20_memory.md R55: the fields of every response word. -/
def Obligations.ResponseWordFields : Prop :=
  ∀ (s t : State) (w : BitVec 32) (payload : List Byte) (rest : List PortItem) (r : Response),
    s.slots.length = Config.hw.nCtx → Delivers s w payload rest → step s = .next t → t.responses = s.responses ++ [r] →
    r.word.getLsbD 1 = t.fault ∧ r.word.extractLsb' 8 8 = causeCode t.cause ∧
    r.word.extractLsb' 4 4 = 0 ∧ r.word.getLsbD 19 = false ∧ r.word.extractLsb' 23 9 = 0 ∧
    (r.word.getLsbD 0 = true →
      r.word.extractLsb' 16 3 = phaseCode (t.slotAt (ctxOf w)).phase ∧
      r.word.extractLsb' 20 3 = personaCode (t.slotAt (ctxOf w)).persona ∧
      (opOf w = 0x31 → r.word.getLsbD 2 = !(r.word.getLsbD 3)) ∧
      (opOf w ≠ 0x31 → r.word.getLsbD 2 = false ∧ r.word.getLsbD 3 = false)) ∧
    (r.word.getLsbD 0 = false →
      r.word.extractLsb' 16 3 = 0 ∧ r.word.extractLsb' 20 3 = 0 ∧ r.word.getLsbD 2 = false ∧
        r.word.getLsbD 3 = false ∧ t.slots = s.slots)

/-- 20_memory.md R56: the length of the output payload. -/
def Obligations.OutputPayloadLength : Prop :=
  ∀ (s t : State) (w : BitVec 32) (payload : List Byte) (rest : List PortItem) (r : Response),
    Delivers s w payload rest → step s = .next t → t.responses = s.responses ++ [r] →
    r.payload.length =
      (if r.word.getLsbD 0 = false then 0
       else if opOf w = 0x01 then 12
       else if opOf w = 0x30 then 16
       else if opOf w = 0x40 then lenOf w
       else if opOf w = 0x51 then 16
       else if opOf w = 0x60 then auxOf w
       else 0)

/-! ### Bytes, blocks and padding -/

/-- 00_scope.md R10: `be64` and `bytes_be`, and that the two are inverse. -/
def Obligations.BigEndianConversions : Prop :=
  (∀ b0 b1 b2 b3 b4 b5 b6 b7 : Byte,
    (be64 [b0, b1, b2, b3, b4, b5, b6, b7]).toNat =
      b0.toNat * 2 ^ 56 + b1.toNat * 2 ^ 48 + b2.toNat * 2 ^ 40 + b3.toNat * 2 ^ 32 + b4.toNat * 2 ^ 24 +
        b5.toNat * 2 ^ 16 + b6.toNat * 2 ^ 8 + b7.toNat) ∧
  (∀ b : List Byte, b.length = 8 → bytesBe (be64 b) = b) ∧
  ∀ w : Word, (bytesBe w).length = 8 ∧ be64 (bytesBe w) = w ∧
    ∀ k, k < 8 → (bytesBe w)[k]? = some (w.extractLsb' (56 - 8 * k) 8)

/-- 40_datapath.md R91: where the marker of the padded block lands. -/
def Obligations.PaddingMarkerPosition : Prop :=
  ∀ (buffered : List Byte) (q : Nat), buffered.length ≤ 31 → q < 4 →
    (paddedBlock buffered).length = 32 ∧ (paddedBlock buffered)[buffered.length]? = some 0x80 ∧
    (q < buffered.length / 8 → wordAt (paddedBlock buffered) q = wordAt buffered q) ∧
    (q = buffered.length / 8 →
      wordAt (paddedBlock buffered) q =
        (be64 (buffered.drop (8 * q)) <<< (64 - 8 * (buffered.length % 8))) |||
          ((0x80 : Word) <<< (56 - 8 * (buffered.length % 8)))) ∧
    (buffered.length / 8 < q → wordAt (paddedBlock buffered) q = 0)

/-- 40_datapath.md R94: APPEND of a whole message and then PAD_FLUSH is the compressions of its full blocks with last = 0
and of its padded remainder with last = 1, floor(L/32) + 1 of them. -/
def Obligations.AbsorptionOfAMessage : Prop :=
  ∀ (cfg : Config) (sl : Slot) (msg : List Byte), sl.bufLen = 0 → sl.buf = Vector.replicate 32 0 →
    (padFlush cfg (appendAll cfg sl msg)).s =
      (((List.range (msg.length / 32)).map (fun j => ((msg.drop (32 * j)).take 32, (0 : Word))) ++
        [(msg.drop (32 * (msg.length / 32)) ++ [0x80] ++
          List.replicate (31 - (msg.length - 32 * (msg.length / 32))) 0, (1 : Word))]).foldl
        (fun (s : Words) (block : List Byte × Word) => cfg.perm (xorBlock s block.1 block.2)) sl.s) ∧
    (paddedBlocks msg).length = msg.length / 32 + 1

/-- 40_datapath.md R95: two different messages, of any lengths, give different sequences of (block, last) pairs. -/
def Obligations.PaddingIsInjective : Prop := ∀ m m' : List Byte, m ≠ m' → paddedBlocks m ≠ paddedBlocks m'

/-! ### Laws over runs of commands -/

/-- 42_absorb.md R126: ABSORBs of the same bytes in any two splits all complete and leave the slot's S, BUF and BUFLEN
alike. -/
def Obligations.AbsorbIsSplitInvariant : Prop :=
  ∀ (s : State) (ctx : BitVec 4) (pieces pieces' : List (List Byte)), Running s → ctx.toNat < Config.hw.nCtx →
    ((s.slotAt ctx.toNat).phase, (s.slotAt ctx.toNat).persona) ∈
      [(Phase.absorb, Persona.mac), (.absorb, .prf), (.prngReady, .prng), (.prngFeed, .prng)] →
    (∀ p ∈ pieces ++ pieces', p.length ≤ 255) → pieces.flatten = pieces'.flatten →
    ∃ t t', execAll (pieces.map (Instr.absorb ctx)) s = some t ∧ execAll (pieces'.map (Instr.absorb ctx)) s = some t' ∧
      t.fault = false ∧ t'.fault = false ∧ (t.slotAt ctx.toNat).s = (t'.slotAt ctx.toNat).s ∧
      (t.slotAt ctx.toNat).buf = (t'.slotAt ctx.toNat).buf ∧
      (t.slotAt ctx.toNat).bufLen = (t'.slotAt ctx.toNat).bufLen

/-- 44_prf.md R165: READs that ask for the same number of bytes in any two splits return the same bytes and leave the slot
alike; from a reader with nothing undelivered the bytes are the first ones of its stream (R164). -/
def Obligations.ReadIsStreamingConsistent : Prop :=
  ∀ (s : State) (ctx : BitVec 4) (counts counts' : List (BitVec 8)), Running s → ctx.toNat < Config.hw.nCtx →
    (s.slotAt ctx.toNat).phase = .squeeze → (s.slotAt ctx.toNat).persona = .prf →
    (counts.map BitVec.toNat).sum = (counts'.map BitVec.toNat).sum →
    ∃ t t', execAll (counts.map (Instr.read ctx)) s = some t ∧ execAll (counts'.map (Instr.read ctx)) s = some t' ∧
      t.fault = false ∧ t'.fault = false ∧ outputsSince s t = outputsSince s t' ∧
      t.slotAt ctx.toNat = t'.slotAt ctx.toNat ∧
      ((s.slotAt ctx.toNat).sqPos = 16 →
        outputsSince s t = streamOf Config.hw.perm (s.slotAt ctx.toNat).s (counts.map BitVec.toNat).sum)

/-- 43_mac.md R148: INIT_MAC, the message in any pieces, and FINAL_MAC return `MAC(K, M)`, a function of the key and the
message alone, whatever the slot held before and however the message was split; no other slot changes. -/
def Obligations.MacDependsOnKeyAndMessageOnly : Prop :=
  ∀ (s : State) (ctx : BitVec 4) (key : List Byte) (pieces : List (List Byte)), Running s →
    ctx.toNat < Config.hw.nCtx → key.length = 16 → (∀ p ∈ pieces, p.length ≤ 255) →
    ∃ t, execAll ([.initMac ctx 16 key] ++ pieces.map (Instr.absorb ctx) ++ [.finalMac ctx]) s = some t ∧
      lastResponse t = some ⟨0x00130001, macOf Config.hw key pieces.flatten⟩ ∧
      ∀ c, c ≠ ctx.toNat → t.slotAt c = s.slotAt c

/-- 43_mac.md R147, R148: in the same run VERIFY_MAC passes exactly the tag `MAC(K, M)`. -/
def Obligations.VerifyAcceptsExactlyTheMac : Prop :=
  ∀ (s : State) (ctx : BitVec 4) (key tag : List Byte) (pieces : List (List Byte)), Running s →
    ctx.toNat < Config.hw.nCtx → key.length = 16 → tag.length = 16 → (∀ p ∈ pieces, p.length ≤ 255) →
    ∃ t, execAll ([.initMac ctx 16 key] ++ pieces.map (Instr.absorb ctx) ++ [.verifyMac ctx 16 tag]) s = some t ∧
      t.fault = false ∧
      (lastResponse t = some ⟨0x00130005, []⟩ ↔ tag = macOf Config.hw key pieces.flatten) ∧
      (lastResponse t = some ⟨0x00130009, []⟩ ↔ tag ≠ macOf Config.hw key pieces.flatten)

/-- 44_prf.md R166: INIT_PRF, the message in any pieces, FINAL_PRF and any READs return the first bytes of `PRF(K, M)`, a
function of the key, the message and the read position alone. -/
def Obligations.PrfDependsOnKeyMessageAndPositionOnly : Prop :=
  ∀ (s : State) (ctx : BitVec 4) (key : List Byte) (pieces : List (List Byte)) (counts : List (BitVec 8)), Running s →
    ctx.toNat < Config.hw.nCtx → key.length = 16 → (∀ p ∈ pieces, p.length ≤ 255) →
    ∃ t, execAll ([.initPrf ctx 16 key] ++ pieces.map (Instr.absorb ctx) ++ [.finalPrf ctx] ++
        counts.map (Instr.read ctx)) s = some t ∧ t.fault = false ∧
      outputsSince s t = prfOf Config.hw key pieces.flatten (counts.map BitVec.toNat).sum

/-- 45_prng.md R179: GENERATEs with no feed between them return the stream `EXTRACT(s) ++ EXTRACT(P(s)) ++ ...`, the one a
PRF reader gives from the same state words. -/
def Obligations.GenerateGivesTheReaderStream : Prop :=
  ∀ (s : State) (ctx : BitVec 4) (k : Nat), Running s → ctx.toNat < Config.hw.nCtx →
    (s.slotAt ctx.toNat).phase = .prngReady → (s.slotAt ctx.toNat).persona = .prng →
    ∃ t, execAll (List.replicate k (.generate ctx)) s = some t ∧ t.fault = false ∧
      outputsSince s t = streamOf Config.hw.perm (s.slotAt ctx.toNat).s (16 * k) ∧
      (t.slotAt ctx.toNat).s = Config.hw.perm^[k] (s.slotAt ctx.toNat).s

/-- 45_prng.md R174, 42_absorb.md R125: one feed of any pieces, ended by FEED_END, absorbs the entropy as one padded message
into the live state, without reinitializing it. -/
def Obligations.FeedAbsorbsOnePaddedMessage : Prop :=
  ∀ (s : State) (ctx : BitVec 4) (pieces : List (List Byte)) (sl : Slot), Running s → ctx.toNat < Config.hw.nCtx →
    s.slotAt ctx.toNat = sl → sl.phase = .prngReady → sl.persona = .prng → sl.bufLen = 0 →
    sl.buf = Vector.replicate 32 0 → (∀ p ∈ pieces, p.length ≤ 255) →
    ∃ t, execAll (pieces.map (Instr.absorb ctx) ++ [.feedEnd ctx]) s = some t ∧ t.fault = false ∧
      t.slotAt ctx.toNat = { sl with s := absorbMessage Config.hw.perm sl.s pieces.flatten }

/-- 00_scope.md R8, 44_prf.md R155: in every configuration whose P is a bijection (60_exceptions.md R233 (c), which no rule
needs and the model does not assume), the three initializations leave different state words, even for equal keys. -/
def Obligations.PersonasAreSeparated : Prop :=
  ∀ cfg : Config, Function.Injective cfg.perm →
    ∀ (s tm tf tp : State) (ctx : BitVec 4) (km kf kp : List Byte), s.slots.length = cfg.nCtx → s.fault = false →
      ctx.toNat < cfg.nCtx → tm = runIn cfg (.initMac ctx 16 km) s → tf = runIn cfg (.initPrf ctx 16 kf) s →
      tp = runIn cfg (.seedPrng ctx 16 kp) s →
      (tm.slotAt ctx.toNat).s ≠ (tf.slotAt ctx.toNat).s ∧ (tm.slotAt ctx.toNat).s ≠ (tp.slotAt ctx.toNat).s ∧
        (tf.slotAt ctx.toNat).s ≠ (tp.slotAt ctx.toNat).s
end

