-- ==== Sys2Proof/Laws/State.lean ====
section
/-! SUPPORT. One lemma per field per update of the state and of a slot, so that no later proof unfolds a record update. -/

namespace Sys2Proof.Machine

variable (s : State) (c : Nat) (sl : Slot) (w : BitVec 32) (k : Cause) (out : List Byte) (cfg : Config)

/-! ### State.setSlot -/

@[simp] theorem setSlot_slots : (s.setSlot c sl).slots = s.slots.set c sl := rfl
@[simp] theorem setSlot_fault : (s.setSlot c sl).fault = s.fault := rfl
@[simp] theorem setSlot_cause : (s.setSlot c sl).cause = s.cause := rfl
@[simp] theorem setSlot_fcmd : (s.setSlot c sl).fcmd = s.fcmd := rfl
@[simp] theorem setSlot_input : (s.setSlot c sl).input = s.input := rfl
@[simp] theorem setSlot_responses : (s.setSlot c sl).responses = s.responses := rfl

/-! ### State.respond -/

@[simp] theorem respond_slots : (s.respond w out).slots = s.slots := rfl
@[simp] theorem respond_fault : (s.respond w out).fault = s.fault := rfl
@[simp] theorem respond_cause : (s.respond w out).cause = s.cause := rfl
@[simp] theorem respond_fcmd : (s.respond w out).fcmd = s.fcmd := rfl
@[simp] theorem respond_input : (s.respond w out).input = s.input := rfl
@[simp] theorem respond_responses : (s.respond w out).responses = s.responses ++ [⟨w, out⟩] := rfl

/-! ### faultEntry -/

@[simp] theorem faultEntry_slots : (faultEntry w k s).slots = s.slots := rfl
@[simp] theorem faultEntry_fault : (faultEntry w k s).fault = true := rfl
@[simp] theorem faultEntry_cause : (faultEntry w k s).cause = k := rfl
@[simp] theorem faultEntry_fcmd : (faultEntry w k s).fcmd = w := rfl
@[simp] theorem faultEntry_input : (faultEntry w k s).input = s.input := rfl
@[simp] theorem faultEntry_responses : (faultEntry w k s).responses = s.responses := rfl

/-! ### resetWith and the reset state -/

@[simp] theorem resetFor_slots : (State.resetFor cfg).slots = List.replicate cfg.nCtx Slot.empty := rfl
@[simp] theorem resetFor_fault : (State.resetFor cfg).fault = false := rfl
@[simp] theorem resetFor_cause : (State.resetFor cfg).cause = .none := rfl
@[simp] theorem resetFor_fcmd : (State.resetFor cfg).fcmd = 0 := rfl
@[simp] theorem resetFor_input : (State.resetFor cfg).input = [] := rfl
@[simp] theorem resetFor_responses : (State.resetFor cfg).responses = [] := rfl
@[simp] theorem resetWith_slots (rest : List PortItem) :
    (resetWith cfg rest s).slots = List.replicate cfg.nCtx Slot.empty := rfl
@[simp] theorem resetWith_fault (rest : List PortItem) : (resetWith cfg rest s).fault = false := rfl
@[simp] theorem resetWith_cause (rest : List PortItem) : (resetWith cfg rest s).cause = .none := rfl
@[simp] theorem resetWith_fcmd (rest : List PortItem) : (resetWith cfg rest s).fcmd = 0 := rfl
@[simp] theorem resetWith_input (rest : List PortItem) : (resetWith cfg rest s).input = rest := rfl
@[simp] theorem resetWith_responses (rest : List PortItem) : (resetWith cfg rest s).responses = s.responses := rfl

/-! ### The next states of Safety.lean -/

@[simp] theorem answered_slots : (answered s c sl w out).slots = s.slots.set c sl := rfl
@[simp] theorem answered_fault : (answered s c sl w out).fault = s.fault := rfl
@[simp] theorem answered_cause : (answered s c sl w out).cause = s.cause := rfl
@[simp] theorem answered_fcmd : (answered s c sl w out).fcmd = s.fcmd := rfl
@[simp] theorem answered_input : (answered s c sl w out).input = s.input := rfl
@[simp] theorem answered_responses : (answered s c sl w out).responses = s.responses ++ [⟨w, out⟩] := rfl
@[simp] theorem faulted_slots : (faulted s w k).slots = s.slots := rfl
@[simp] theorem faulted_fault : (faulted s w k).fault = true := rfl
@[simp] theorem faulted_cause : (faulted s w k).cause = k := rfl
@[simp] theorem faulted_fcmd : (faulted s w k).fcmd = w := rfl
@[simp] theorem faulted_input : (faulted s w k).input = s.input := rfl
@[simp] theorem rejected_slots : (rejected s).slots = s.slots := rfl
@[simp] theorem rejected_fault : (rejected s).fault = s.fault := rfl
@[simp] theorem rejected_cause : (rejected s).cause = s.cause := rfl
@[simp] theorem rejected_fcmd : (rejected s).fcmd = s.fcmd := rfl
@[simp] theorem rejected_input : (rejected s).input = s.input := rfl

/-! ### The slot primitives -/

variable (key block : List Byte) (iv last : Word) (p : Phase) (q : Persona)

@[simp] theorem permute_s : (permute cfg sl).s = cfg.perm sl.s := rfl
@[simp] theorem permute_buf : (permute cfg sl).buf = sl.buf := rfl
@[simp] theorem permute_bufLen : (permute cfg sl).bufLen = sl.bufLen := rfl
@[simp] theorem permute_obuf : (permute cfg sl).obuf = sl.obuf := rfl
@[simp] theorem permute_sqPos : (permute cfg sl).sqPos = sl.sqPos := rfl
@[simp] theorem permute_phase : (permute cfg sl).phase = sl.phase := rfl
@[simp] theorem permute_persona : (permute cfg sl).persona = sl.persona := rfl

@[simp] theorem initState_s : (initState cfg iv key sl).s = cfg.perm (keyedWords iv key 0 0) := rfl
@[simp] theorem initState_buf : (initState cfg iv key sl).buf = sl.buf := rfl
@[simp] theorem initState_bufLen : (initState cfg iv key sl).bufLen = sl.bufLen := rfl
@[simp] theorem initState_obuf : (initState cfg iv key sl).obuf = sl.obuf := rfl
@[simp] theorem initState_sqPos : (initState cfg iv key sl).sqPos = sl.sqPos := rfl
@[simp] theorem initState_phase : (initState cfg iv key sl).phase = sl.phase := rfl
@[simp] theorem initState_persona : (initState cfg iv key sl).persona = sl.persona := rfl

@[simp] theorem compress_s : (compress cfg block last sl).s = cfg.perm (xorBlock sl.s block last) := rfl
@[simp] theorem compress_buf : (compress cfg block last sl).buf = sl.buf := rfl
@[simp] theorem compress_bufLen : (compress cfg block last sl).bufLen = sl.bufLen := rfl
@[simp] theorem compress_obuf : (compress cfg block last sl).obuf = sl.obuf := rfl
@[simp] theorem compress_sqPos : (compress cfg block last sl).sqPos = sl.sqPos := rfl
@[simp] theorem compress_phase : (compress cfg block last sl).phase = sl.phase := rfl
@[simp] theorem compress_persona : (compress cfg block last sl).persona = sl.persona := rfl

@[simp] theorem clearBuf_s : (clearBuf sl).s = sl.s := rfl
@[simp] theorem clearBuf_buf : (clearBuf sl).buf = Vector.replicate 32 0 := rfl
@[simp] theorem clearBuf_bufLen : (clearBuf sl).bufLen = 0 := rfl
@[simp] theorem clearBuf_obuf : (clearBuf sl).obuf = sl.obuf := rfl
@[simp] theorem clearBuf_sqPos : (clearBuf sl).sqPos = sl.sqPos := rfl
@[simp] theorem clearBuf_phase : (clearBuf sl).phase = sl.phase := rfl
@[simp] theorem clearBuf_persona : (clearBuf sl).persona = sl.persona := rfl

@[simp] theorem padFlush_s :
    (padFlush cfg sl).s = cfg.perm (xorBlock sl.s (paddedBlock sl.buffered) dsFinal) := rfl
@[simp] theorem padFlush_buf : (padFlush cfg sl).buf = Vector.replicate 32 0 := rfl
@[simp] theorem padFlush_bufLen : (padFlush cfg sl).bufLen = 0 := rfl
@[simp] theorem padFlush_obuf : (padFlush cfg sl).obuf = sl.obuf := rfl
@[simp] theorem padFlush_sqPos : (padFlush cfg sl).sqPos = sl.sqPos := rfl
@[simp] theorem padFlush_phase : (padFlush cfg sl).phase = sl.phase := rfl
@[simp] theorem padFlush_persona : (padFlush cfg sl).persona = sl.persona := rfl

@[simp] theorem squeezeBlock_s : (squeezeBlock cfg sl).s = cfg.perm sl.s := rfl
@[simp] theorem squeezeBlock_buf : (squeezeBlock cfg sl).buf = sl.buf := rfl
@[simp] theorem squeezeBlock_bufLen : (squeezeBlock cfg sl).bufLen = sl.bufLen := rfl
@[simp] theorem squeezeBlock_obuf : (squeezeBlock cfg sl).obuf = extract sl.s := rfl
@[simp] theorem squeezeBlock_sqPos : (squeezeBlock cfg sl).sqPos = 0 := rfl
@[simp] theorem squeezeBlock_phase : (squeezeBlock cfg sl).phase = sl.phase := rfl
@[simp] theorem squeezeBlock_persona : (squeezeBlock cfg sl).persona = sl.persona := rfl

@[simp] theorem freshContext_s : (freshContext p q sl).s = sl.s := rfl
@[simp] theorem freshContext_buf : (freshContext p q sl).buf = Vector.replicate 32 0 := rfl
@[simp] theorem freshContext_bufLen : (freshContext p q sl).bufLen = 0 := rfl
@[simp] theorem freshContext_obuf : (freshContext p q sl).obuf = Vector.replicate 16 0 := rfl
@[simp] theorem freshContext_sqPos : (freshContext p q sl).sqPos = 16 := rfl
@[simp] theorem freshContext_phase : (freshContext p q sl).phase = p := rfl
@[simp] theorem freshContext_persona : (freshContext p q sl).persona = q := rfl

/-- A new keyed context, field by field: nothing of the slot's earlier content is left (43_mac.md R141). -/
theorem startContext_eq (n : IvName) :
    startContext cfg n p q key sl =
      ⟨cfg.perm (keyedWords (cfg.iv n) key 0 0), Vector.replicate 32 0, 0, Vector.replicate 16 0, 16, p, q⟩ := rfl

/-- A consumed MAC context, field by field (43_mac.md R144, R149). -/
theorem consumeMac_eq :
    consumeMac cfg sl = ⟨Words.zero, Vector.replicate 32 0, 0, sl.obuf, sl.sqPos, .done, sl.persona⟩ := rfl

end Sys2Proof.Machine
end

