-- ==== Sys2Proof/Laws/Bytes.lean ====
section
/-! SUPPORT. Bytes and words: lengths, the parts of a key, the output bytes of a state, and the tag comparison as an
equality. -/

namespace Sys2Proof.Machine

@[simp] theorem bytesBe_length (w : Word) : (bytesBe w).length = 8 := rfl

@[simp] theorem outputBlock_length (s : Words) : (outputBlock s).length = 16 := rfl

/-- EXTRACT is the 16 output bytes of the state (R92). -/
@[simp] theorem extract_toList (s : Words) : (extract s).toList = outputBlock s := rfl

@[simp] theorem zeros_length (n : Nat) : (zeros n).length = n := List.length_replicate

theorem wordAt_zero (bytes : List Byte) : wordAt bytes 0 = be64 (bytes.take 8) := rfl

theorem wordAt_one (bytes : List Byte) : wordAt bytes 1 = be64 ((bytes.drop 8).take 8) := rfl

/-- INIT_STATE builds the state words of a new keyed context (R87). -/
theorem perm_keyedWords (cfg : Config) (iv : Word) (key : List Byte) :
    cfg.perm (keyedWords iv key 0 0) = startWords cfg.perm iv key := rfl

/-- An XOR-then-OR fold from `d` is zero just when `d` is and all pairs agree. -/
theorem foldl_difference_eq_zero (tag expected : List Byte) (d : Byte) (h : tag.length = expected.length) :
    (List.zipWith (fun t e => t ^^^ e) tag expected).foldl (fun d x => d ||| x) d = 0 ↔ d = 0 ∧ tag = expected := by
  induction tag generalizing expected d with
  | nil =>
    cases expected with
    | nil => simp
    | cons e es => simp at h
  | cons t ts ih =>
    cases expected with
    | nil => simp at h
    | cons e es =>
      have h' : ts.length = es.length := by simpa using h
      simp only [List.zipWith_cons_cons, List.foldl_cons, ih es _ h', List.cons.injEq]
      constructor
      · rintro ⟨h1, h2⟩
        obtain ⟨h3, h4⟩ := BitVec.or_eq_zero_iff.mp h1
        exact ⟨h3, BitVec.xor_eq_zero_iff.mp h4, h2⟩
      · rintro ⟨rfl, rfl, h2⟩
        simp [h2]

/-- VERIFY_MAC's comparison accepts exactly the equal tag (R147). -/
theorem tagVerdict_eq (tag expected : List Byte) (h : tag.length = expected.length) :
    tagVerdict tag expected = if tag = expected then .pass else .fail := by
  have := foldl_difference_eq_zero tag expected 0 h
  simp only [true_and] at this
  simp only [tagVerdict, tagDifference, this]

@[simp] theorem macTag_length (cfg : Config) (sl : Slot) : (macTag cfg sl).length = 16 := rfl

end Sys2Proof.Machine
end

