-- ==== Sys2Proof/Laws/Exec.lean ====
section
/-! SUPPORT. The command frame (spec/60_exceptions.md R237): every meaning is the frame around one body, the frame does one
of three things, and what each of them is. -/

namespace Sys2Proof.Machine

/-- The body each command runs, as its meaning names it. -/
def bodyOf (cfg : Config) (i : Instr) (s : State) : Slot → BodyResult :=
  match i with
  | .nop => nopBody
  | .query _ => queryBody cfg s.fcmd
  | .clear _ => clearBody
  | .clone _ src => cloneBody (s.slotAt src.toNat)
  | .initMac _ _ key => initMacBody cfg key
  | .initPrf _ _ key => initPrfBody cfg key
  | .seedPrng _ _ seed => seedPrngBody cfg seed
  | .absorb _ bytes => absorbBody cfg bytes
  | .finalMac _ => finalMacBody cfg
  | .verifyMac _ _ tag => verifyMacBody cfg tag
  | .finalPrf _ => finalPrfBody cfg
  | .read _ n => readBody cfg n
  | .feedEnd _ => feedEndBody cfg
  | .generate _ => generateBody cfg
  | .short _ t key msg => shortBody cfg t key msg

/-- Every instruction's meaning is the command frame around its body; `exec` always answers a next state. -/
theorem exec_eq_frame (i : Instr) (s : State) :
    exec i s = .next (frame Config.hw i.header (bodyOf Config.hw i s) s) := by
  cases i <;> rfl

/-- The same in any configuration. -/
theorem runIn_eq_frame (cfg : Config) (i : Instr) (s : State) :
    runIn cfg i s = frame cfg i.header (bodyOf cfg i s) s := by
  cases i <;> rfl

/-! ### Slots -/

theorem slotAt_eq_getElem {s : State} {c : Nat} (h : c < s.slots.length) : s.slotAt c = s.slots[c] := by
  simp [State.slotAt, List.getD_eq_getElem?_getD, h]

theorem slotAt_setSlot_self {s : State} {c : Nat} (h : c < s.slots.length) (sl : Slot) :
    (s.setSlot c sl).slotAt c = sl := by
  simp [State.slotAt, List.getD_eq_getElem?_getD, h]

theorem slotAt_setSlot_of_ne {s : State} {c d : Nat} (h : d ≠ c) (sl : Slot) :
    (s.setSlot c sl).slotAt d = s.slotAt d := by
  simp [State.slotAt, List.getD_eq_getElem?_getD, h.symm]

/-- Writing a slot with what it holds changes nothing. -/
@[simp] theorem set_slotAt (s : State) (c : Nat) : s.slots.set c (s.slotAt c) = s.slots := by
  apply List.ext_getElem?
  intro k
  rw [List.getElem?_set]
  split
  · rename_i h; subst h
    split
    · rename_i h; simp [State.slotAt, List.getD_eq_getElem?_getD, h]
    · rename_i h; simp [List.getElem?_eq_none (Nat.le_of_not_lt h)]
  · rfl

/-! ### Response words -/

/-- The response word of a completed command while FAULT = 0 and CAUSE = NONE. -/
theorem responseWord_ok (p : Phase) (q : Persona) :
    responseWord true false .none .none (phaseCode p) (personaCode q) = okWord p q := by
  cases p <;> cases q <;> decide

/-- The response word of a completed command that gives no verdict, FAULT and CAUSE as held. -/
theorem responseWord_held (s : State) (p : Phase) (q : Persona) :
    responseWord true s.fault .none s.cause (phaseCode p) (personaCode q) = heldWord s p q := by
  unfold heldWord
  cases s.fault <;> cases s.cause <;> cases p <;> cases q <;> decide

/-- The response word of a rejected command while FAULT = 1. -/
theorem responseWord_rejected (c : Cause) :
    responseWord false true .none c 0 0 = (0#16 ++ causeCode c ++ 0x02#8 : BitVec (16 + 8 + 8)) := by
  cases c <;> decide

/-- A completed command's next state, as `complete` forms it. -/
theorem complete_eq_answered (h : Header) (body : Slot → BodyResult) (s : State) :
    complete h body s =
      answered s h.ctx.toNat (body (s.slotAt h.ctx.toNat)).slot
        (responseWord true s.fault (body (s.slotAt h.ctx.toNat)).verdict s.cause
          (phaseCode (body (s.slotAt h.ctx.toNat)).slot.phase)
          (personaCode (body (s.slotAt h.ctx.toNat)).slot.persona))
        (body (s.slotAt h.ctx.toNat)).out := rfl

/-- The answer of a command rejected while FAULT = 1. -/
theorem respondRejected_faulted {s : State} (h : s.fault = true) : respondRejected s = rejected s := by
  simp only [respondRejected, rejected, State.respond, h, responseWord_rejected]

/-- A fault is entered and answered. -/
theorem respondRejected_faultEntry (w : BitVec 32) (c : Cause) (s : State) :
    respondRejected (faultEntry w c s) = faulted s w c := by
  simp only [respondRejected, faulted, faultEntry, State.respond, responseWord_rejected]

/-! ### The three outcomes of the frame -/

/-- Everything the frame can do (R237). -/
theorem frame_cases (cfg : Config) (h : Header) (body : Slot → BodyResult) (s : State) :
    (check cfg h s = .none ∧ (s.fault = true → runsWhileFaulted h.op = true) ∧
      frame cfg h body s = complete h body s) ∨
    (s.fault = true ∧ (runsWhileFaulted h.op = false ∨ check cfg h s ≠ .none) ∧ frame cfg h body s = rejected s) ∨
    (s.fault = false ∧ check cfg h s ≠ .none ∧ frame cfg h body s = faulted s h.toWord (check cfg h s)) := by
  unfold frame
  by_cases hf : s.fault = true
  · by_cases hc : runsWhileFaulted h.op = true ∧ check cfg h s = .none
    · exact .inl ⟨hc.2, fun _ => hc.1, by rw [if_pos hf, if_pos hc]⟩
    · refine .inr (.inl ⟨hf, ?_, by rw [if_pos hf, if_neg hc, respondRejected_faulted hf]⟩)
      by_cases hr : runsWhileFaulted h.op = true
      · exact .inr fun h' => hc ⟨hr, h'⟩
      · exact .inl (by simpa using hr)
  · have hf' : s.fault = false := by simpa using hf
    by_cases hc : check cfg h s = .none
    · exact .inl ⟨hc, fun h' => absurd h' hf, by rw [if_neg hf, if_pos hc]⟩
    · exact .inr (.inr ⟨hf', hc, by rw [if_neg hf, if_neg hc, respondRejected_faultEntry]⟩)

/-- A command that passes CHECK, and runs while FAULT = 1 if the engine is faulted, completes. -/
theorem frame_of_runs {cfg : Config} {h : Header} {body : Slot → BodyResult} {s : State}
    (hf : s.fault = true → runsWhileFaulted h.op = true) (hc : check cfg h s = .none) :
    frame cfg h body s = complete h body s := by
  unfold frame
  by_cases h' : s.fault = true
  · rw [if_pos h', if_pos ⟨hf h', hc⟩]
  · rw [if_neg h', if_pos hc]

/-- A command that passes CHECK on an engine that is not faulted completes. -/
theorem frame_of_check {cfg : Config} {h : Header} {body : Slot → BodyResult} {s : State} (hf : s.fault = false)
    (hc : check cfg h s = .none) : frame cfg h body s = complete h body s := by
  simp [frame, hf, hc]

/-- A command that fails CHECK on an engine that is not faulted faults. -/
theorem frame_of_violation {cfg : Config} {h : Header} {body : Slot → BodyResult} {s : State} (hf : s.fault = false)
    (hc : check cfg h s ≠ .none) : frame cfg h body s = faulted s h.toWord (check cfg h s) := by
  simp [frame, hf, hc, respondRejected_faultEntry]

/-- CHECK passes exactly when its three steps do (R238 steps 3 to 5). -/
theorem check_eq_none (cfg : Config) (h : Header) (s : State) :
    check cfg h s = .none ↔
      slotsExist cfg h = true ∧ lengthCause h = .none ∧
        admits h.op (s.slotAt h.ctx.toNat).phase (s.slotAt h.ctx.toNat).persona = true := by
  unfold check
  split
  · simp_all
  · split
    · simp_all
    · split <;> simp_all

/-- The next state of an instruction that passes CHECK on a running engine, its response word in closed form. -/
theorem exec_of_check {i : Instr} {s : State} (hr : Running s) (hc : check Config.hw i.header s = .none) :
    exec i s =
      .next (answered s (slotOf i) (bodyOf Config.hw i s (s.slotAt (slotOf i))).slot
        (responseWord true false (bodyOf Config.hw i s (s.slotAt (slotOf i))).verdict .none
          (phaseCode (bodyOf Config.hw i s (s.slotAt (slotOf i))).slot.phase)
          (personaCode (bodyOf Config.hw i s (s.slotAt (slotOf i))).slot.persona))
        (bodyOf Config.hw i s (s.slotAt (slotOf i))).out) := by
  rw [exec_eq_frame, frame_of_check hr.2.1 hc, complete_eq_answered, hr.2.1, hr.2.2]
  rfl

end Sys2Proof.Machine
end

