-- ==== Sys2Proof/Laws/Absorb.lean ====
section
/-! SUPPORT. APPEND and PAD_FLUSH in closed form (spec/40_datapath.md R89, R90, R94): what any number of appended bytes
leaves in a slot. -/

namespace Sys2Proof.Machine

/-! ### Full blocks and remainder of a byte string with one byte more -/

theorem remainder_length (msg : List Byte) : (remainder msg).length = msg.length % 32 := by
  simp only [remainder, List.length_drop]; omega

theorem fullBlocks_snoc_partial (msg : List Byte) (b : Byte) (h : msg.length % 32 + 1 < 32) :
    fullBlocks (msg ++ [b]) = fullBlocks msg := by
  have hq : (msg ++ [b]).length / 32 = msg.length / 32 := by simp; omega
  rw [fullBlocks, fullBlocks, hq]
  apply List.map_congr_left
  intro j hj
  have hj' : j < msg.length / 32 := List.mem_range.mp hj
  rw [List.drop_append_of_le_length (by omega), List.take_append_of_le_length (by simp; omega)]

theorem remainder_snoc_partial (msg : List Byte) (b : Byte) (h : msg.length % 32 + 1 < 32) :
    remainder (msg ++ [b]) = remainder msg ++ [b] := by
  have hq : (msg ++ [b]).length / 32 = msg.length / 32 := by simp; omega
  rw [remainder, remainder, hq, List.drop_append_of_le_length (by omega)]

theorem fullBlocks_snoc_full (msg : List Byte) (b : Byte) (h : msg.length % 32 + 1 = 32) :
    fullBlocks (msg ++ [b]) = fullBlocks msg ++ [remainder msg ++ [b]] := by
  have hq : (msg ++ [b]).length / 32 = msg.length / 32 + 1 := by simp; omega
  rw [fullBlocks, fullBlocks, hq, List.range_succ, List.map_append, List.map_singleton]
  congr 1
  · apply List.map_congr_left
    intro j hj
    have hj' : j < msg.length / 32 := List.mem_range.mp hj
    rw [List.drop_append_of_le_length (by omega), List.take_append_of_le_length (by simp; omega)]
  · rw [List.drop_append_of_le_length (by omega), List.take_of_length_le]
    · rfl
    · simp; omega

theorem remainder_snoc_full (msg : List Byte) (b : Byte) (h : msg.length % 32 + 1 = 32) :
    remainder (msg ++ [b]) = [] := by
  rw [remainder, List.drop_eq_nil_iff]; simp; omega

theorem fullBlocks_of_short {msg : List Byte} (h : msg.length < 32) : fullBlocks msg = [] := by
  simp [fullBlocks, Nat.div_eq_of_lt h]

theorem remainder_of_short {msg : List Byte} (h : msg.length < 32) : remainder msg = msg := by
  simp [remainder, Nat.div_eq_of_lt h]

/-! ### APPEND -/

/-- The slot holds the byte string `msg`, received since its state words were `s0`: full blocks absorbed, the rest in BUF,
zeros behind it. -/
structure Holds (cfg : Config) (s0 : Words) (msg : List Byte) (sl : Slot) : Prop where
  words : sl.s = absorbFull cfg.perm s0 msg
  buffer : sl.buf.toList = remainder msg ++ List.replicate (32 - msg.length % 32) 0
  count : sl.bufLen.val = msg.length % 32

/-- A slot whose BUF is zero from BUFLEN on (R28) holds its own buffered bytes. -/
theorem holds_buffered (cfg : Config) (sl : Slot) (hz : ∀ k : Fin 32, sl.bufLen.val ≤ k.val → sl.buf[k] = 0) :
    Holds cfg sl.s sl.buffered sl := by
  have hl : sl.buffered.length = sl.bufLen.val := by simp [Slot.buffered]
  have hs : sl.buffered.length < 32 := by omega
  refine ⟨?_, ?_, ?_⟩
  · simp [absorbFull, fullBlocks_of_short hs]
  · rw [remainder_of_short hs, Nat.mod_eq_of_lt hs, hl]
    apply List.ext_getElem
    · simp [hl]
    · intro k h1 h2
      have hk : k < 32 := by simpa using h1
      by_cases hlt : k < sl.bufLen.val
      · rw [List.getElem_append_left (by omega)]; simp [Slot.buffered]
      · rw [List.getElem_append_right (by omega)]
        have := hz ⟨k, hk⟩ (by simpa using hlt)
        simpa using this
  · omega

/-- One APPEND (R89). -/
theorem Holds.append {cfg : Config} {s0 : Words} {msg : List Byte} {sl : Slot} (h : Holds cfg s0 msg sl) (b : Byte) :
    Holds cfg s0 (msg ++ [b]) (append cfg sl b) := by
  have hr := remainder_length msg
  have hlt : msg.length % 32 < 32 := Nat.mod_lt _ (by norm_num)
  have hset : (sl.buf.set sl.bufLen.val b sl.bufLen.isLt).toList =
      remainder msg ++ b :: List.replicate (31 - msg.length % 32) 0 := by
    rw [Vector.toList_set, h.buffer, h.count, List.set_append_right _ _ (by omega)]
    congr 1
    rw [hr, Nat.sub_self, show 32 - msg.length % 32 = (31 - msg.length % 32) + 1 by omega, List.replicate_succ,
      List.set_cons_zero]
  unfold Machine.append
  by_cases hc : msg.length % 32 + 1 < 32
  · have hc' : sl.bufLen.val + 1 < 32 := by rw [h.count]; exact hc
    simp only [hc', dite_true]
    refine ⟨?_, ?_, ?_⟩
    · simp only [absorbFull, fullBlocks_snoc_partial msg b hc]; exact h.words
    · rw [hset, remainder_snoc_partial msg b hc, List.length_append, List.length_singleton,
        show (msg.length + 1) % 32 = msg.length % 32 + 1 by omega, List.append_assoc,
        show 32 - (msg.length % 32 + 1) = 31 - msg.length % 32 by omega]
      rfl
    · simp only [List.length_append, List.length_singleton, h.count]; omega
  · have hc' : ¬ sl.bufLen.val + 1 < 32 := by rw [h.count]; exact hc
    have hc32 : msg.length % 32 + 1 = 32 := by omega
    simp only [hc', dite_false]
    refine ⟨?_, ?_, ?_⟩
    · rw [clearBuf_s, compress_s, hset, h.words, absorbFull, absorbFull, fullBlocks_snoc_full msg b hc32,
        List.map_append, List.foldl_append, show 31 - msg.length % 32 = 0 by omega]
      rfl
    · rw [clearBuf_buf, remainder_snoc_full msg b hc32, List.length_append, List.length_singleton,
        show (msg.length + 1) % 32 = 0 by omega]
      rfl
    · simp only [clearBuf_bufLen, List.length_append, List.length_singleton]; simp; omega

/-- Any number of APPENDs. -/
theorem Holds.appendAll {cfg : Config} {s0 : Words} {msg : List Byte} {sl : Slot} (h : Holds cfg s0 msg sl)
    (bytes : List Byte) : Holds cfg s0 (msg ++ bytes) (appendAll cfg sl bytes) := by
  induction bytes generalizing msg sl with
  | nil => simpa [Machine.appendAll] using h
  | cons b bs ih =>
    have := ih (h.append b)
    simpa [Machine.appendAll] using this

/-- APPEND touches no other field of the slot. -/
theorem append_frame (cfg : Config) (sl : Slot) (b : Byte) :
    (append cfg sl b).obuf = sl.obuf ∧ (append cfg sl b).sqPos = sl.sqPos ∧
      (append cfg sl b).phase = sl.phase ∧ (append cfg sl b).persona = sl.persona := by
  unfold append
  split <;> simp

/-- Nor do any number of them. -/
theorem appendAll_frame (cfg : Config) (sl : Slot) (bytes : List Byte) :
    (appendAll cfg sl bytes).obuf = sl.obuf ∧ (appendAll cfg sl bytes).sqPos = sl.sqPos ∧
      (appendAll cfg sl bytes).phase = sl.phase ∧ (appendAll cfg sl bytes).persona = sl.persona := by
  induction bytes generalizing sl with
  | nil => exact ⟨rfl, rfl, rfl, rfl⟩
  | cons b bs ih =>
    obtain ⟨h1, h2, h3, h4⟩ := append_frame cfg sl b
    obtain ⟨g1, g2, g3, g4⟩ := ih (append cfg sl b)
    exact ⟨g1.trans h1, g2.trans h2, g3.trans h3, g4.trans h4⟩

/-- Appending two byte strings is appending their concatenation (R126). -/
theorem appendAll_append (cfg : Config) (sl : Slot) (a b : List Byte) :
    appendAll cfg sl (a ++ b) = appendAll cfg (appendAll cfg sl a) b := List.foldl_append

/-- The buffered bytes of a slot that holds `msg` are its last `len(msg) mod 32`. -/
theorem Holds.buffered {cfg : Config} {s0 : Words} {msg : List Byte} {sl : Slot} (h : Holds cfg s0 msg sl) :
    sl.buffered = remainder msg := by
  rw [Slot.buffered, h.buffer, h.count, List.take_append_of_le_length (by rw [remainder_length]),
    List.take_of_length_le (by rw [remainder_length])]

/-- PAD_FLUSH of a slot that holds `msg` completes the message (R94). -/
theorem Holds.padFlush_s {cfg : Config} {s0 : Words} {msg : List Byte} {sl : Slot} (h : Holds cfg s0 msg sl) :
    (padFlush cfg sl).s = absorbMessage cfg.perm s0 msg := by
  rw [Machine.padFlush_s, h.buffered, h.words, absorbMessage, paddedBlocks, List.foldl_append, paddedBlock,
    remainder_length, show msg.length - 32 * (msg.length / 32) = msg.length % 32 by omega]
  rfl

end Sys2Proof.Machine
end

