-- ==== Sys2Proof/Laws/Decode.lean ====
section
/-! SUPPORT. Decoding and encoding: the fields of a built word, a word rebuilt from its fields, the opcode map both ways. -/

namespace Sys2Proof

variable (ctx : BitVec 4) (aux len op : BitVec 8)

/-- A bit of a built word, by the field it lies in. -/
theorem getLsbD_wordOfFields (k : Nat) :
    (wordOfFields ctx aux len op).getLsbD k =
      if k < 8 then op.getLsbD k
      else if k < 16 then len.getLsbD (k - 8)
      else if k < 24 then aux.getLsbD (k - 16)
      else if k < 28 then ctx.getLsbD (k - 24)
      else false := by
  change BitVec.getLsbD (0#4 ++ ctx ++ aux ++ len ++ op : BitVec (4 + 4 + 8 + 8 + 8)) k = _
  simp only [BitVec.getLsbD_append, BitVec.getLsbD_zero]
  by_cases h1 : k < 8
  · simp [h1]
  by_cases h2 : k < 16
  · simp [h1, h2, show k - 8 < 8 by omega]
  by_cases h3 : k < 24
  · simp [h1, h2, h3, show ¬ k - 8 < 8 by omega, show k - 8 - 8 = k - 16 by omega,
      show k - 16 < 8 by omega]
  by_cases h4 : k < 28
  · simp [h1, h2, h3, h4, show ¬ k - 8 < 8 by omega, show ¬ k - 8 - 8 < 8 by omega,
      show k - 8 - 8 - 8 = k - 24 by omega,
      show k - 24 < 4 by omega]
  · simp [h1, h2, h3, h4, show ¬ k - 8 < 8 by omega, show ¬ k - 8 - 8 < 8 by omega,
      show ¬ k - 8 - 8 - 8 < 4 by omega]

@[simp] theorem opField_wordOfFields : opField (wordOfFields ctx aux len op) = op := by
  apply BitVec.eq_of_getLsbD_eq; intro k hk
  simp [opField, getLsbD_wordOfFields, hk]

@[simp] theorem lenField_wordOfFields : lenField (wordOfFields ctx aux len op) = len := by
  apply BitVec.eq_of_getLsbD_eq; intro k hk
  simp [lenField, getLsbD_wordOfFields, hk, show 8 + k < 16 by omega]

@[simp] theorem auxField_wordOfFields : auxField (wordOfFields ctx aux len op) = aux := by
  apply BitVec.eq_of_getLsbD_eq; intro k hk
  simp [auxField, getLsbD_wordOfFields, hk, show ¬ 16 + k < 8 by omega, show 16 + k < 24 by omega]

@[simp] theorem ctxField_wordOfFields : ctxField (wordOfFields ctx aux len op) = ctx := by
  apply BitVec.eq_of_getLsbD_eq; intro k hk
  simp [ctxField, getLsbD_wordOfFields, hk, show ¬ 24 + k < 8 by omega, show ¬ 24 + k < 16 by omega,
    show 24 + k < 28 by omega]

@[simp] theorem rsvdField_wordOfFields : rsvdField (wordOfFields ctx aux len op) = 0 := by
  apply BitVec.eq_of_getLsbD_eq; intro k hk
  simp [rsvdField, getLsbD_wordOfFields, show ¬ 28 + k < 8 by omega, show ¬ 28 + k < 16 by omega,
    show ¬ 28 + k < 24 by omega]

/-- A word is built from its fields where RSVD = 0 (R61). -/
theorem wordOfFields_fields (w : BitVec 32) (h : rsvdField w = 0) :
    wordOfFields (ctxField w) (auxField w) (lenField w) (opField w) = w := by
  apply BitVec.eq_of_getLsbD_eq; intro k hk
  rw [getLsbD_wordOfFields]
  simp only [opField, lenField, auxField, ctxField, BitVec.getLsbD_extractLsb']
  by_cases h1 : k < 8
  · simp [h1]
  by_cases h2 : k < 16
  · simp [h1, h2, show k - 8 < 8 by omega, show 8 + (k - 8) = k by omega]
  by_cases h3 : k < 24
  · simp [h1, h2, h3, show k - 16 < 8 by omega, show 16 + (k - 16) = k by omega]
  by_cases h4 : k < 28
  · simp [h1, h2, h3, h4, show k - 24 < 4 by omega, show 24 + (k - 24) = k by omega]
  · have := congrArg (BitVec.getLsbD · (k - 28)) h
    simp [rsvdField, show k - 28 < 4 by omega, show 28 + (k - 28) = k by omega] at this
    simp [h1, h2, h3, h4, this]

/-- The opcode map read forwards: every command's OP value selects it. -/
@[simp] theorem ofCode?_code (o : Opcode) : Opcode.ofCode? o.code = some o := by
  cases o <;> decide

/-- The opcode map read backwards: what an OP value selects has that value. -/
theorem code_of_ofCode? {op : BitVec 8} {o : Opcode} (h : Opcode.ofCode? op = some o) : o.code = op := by
  have := List.find?_some h
  simpa using this

/-- The header of a built word, where no field that must be zero is set. -/
theorem Header.ofWord_toWord (h : Header) (hr : h.op.reservedFieldSet h.len h.aux h.ctx = false) :
    Header.ofWord h.toWord = .ok h := by
  simp [Header.ofWord, Header.toWord, opField_wordOfFields, lenField_wordOfFields, auxField_wordOfFields,
    ctxField_wordOfFields, rsvdField_wordOfFields, hr]

/-- What a decoded word satisfies: it is its header's word, and no field that must be zero is set. -/
theorem Header.of_ofWord {w : BitVec 32} {h : Header} (hw : Header.ofWord w = .ok h) :
    h.toWord = w ∧ h.op.reservedFieldSet h.len h.aux h.ctx = false := by
  unfold Header.ofWord at hw
  split at hw
  · cases hw
  · rename_i o ho
    split at hw
    · cases hw
    · rename_i hn
      obtain rfl := Except.ok.inj hw
      simp only [Bool.or_eq_true, bne_iff_ne, ne_eq, not_or, not_not, Bool.not_eq_true] at hn
      refine ⟨?_, hn.2⟩
      rw [Header.toWord]
      simp only [code_of_ofCode? ho]
      exact wordOfFields_fields w hn.1

end Sys2Proof
end

