-- ==== Sys2Proof/Laws/PerInstr.lean ====
section
/-! SUPPORT. Statements made of every instruction as syntax, one lemma per constructor (LAWS.json). -/

namespace Sys2Proof.Laws

/-- The family HeaderWord: the command word of an instruction decodes to its header. -/
def HeaderWord.Statement (i : Instr) : Prop := Header.ofWord i.word = .ok i.header

theorem HeaderWord.nop : HeaderWord.Statement .nop := Header.ofWord_toWord _ rfl
theorem HeaderWord.query (ctx : BitVec 4) : HeaderWord.Statement (.query ctx) := Header.ofWord_toWord _ rfl
theorem HeaderWord.clear (ctx : BitVec 4) : HeaderWord.Statement (.clear ctx) := Header.ofWord_toWord _ rfl
theorem HeaderWord.clone (dst : BitVec 4) (src : BitVec 8) : HeaderWord.Statement (.clone dst src) :=
  Header.ofWord_toWord _ rfl
theorem HeaderWord.initMac (ctx : BitVec 4) (len : BitVec 8) (key : List Byte) :
    HeaderWord.Statement (.initMac ctx len key) := Header.ofWord_toWord _ rfl
theorem HeaderWord.initPrf (ctx : BitVec 4) (len : BitVec 8) (key : List Byte) :
    HeaderWord.Statement (.initPrf ctx len key) := Header.ofWord_toWord _ rfl
theorem HeaderWord.seedPrng (ctx : BitVec 4) (len : BitVec 8) (seed : List Byte) :
    HeaderWord.Statement (.seedPrng ctx len seed) := Header.ofWord_toWord _ rfl
theorem HeaderWord.absorb (ctx : BitVec 4) (bytes : List Byte) : HeaderWord.Statement (.absorb ctx bytes) :=
  Header.ofWord_toWord _ rfl
theorem HeaderWord.finalMac (ctx : BitVec 4) : HeaderWord.Statement (.finalMac ctx) := Header.ofWord_toWord _ rfl
theorem HeaderWord.verifyMac (ctx : BitVec 4) (len : BitVec 8) (tag : List Byte) :
    HeaderWord.Statement (.verifyMac ctx len tag) := Header.ofWord_toWord _ rfl
theorem HeaderWord.finalPrf (ctx : BitVec 4) : HeaderWord.Statement (.finalPrf ctx) := Header.ofWord_toWord _ rfl
theorem HeaderWord.read (ctx : BitVec 4) (n : BitVec 8) : HeaderWord.Statement (.read ctx n) :=
  Header.ofWord_toWord _ rfl
theorem HeaderWord.feedEnd (ctx : BitVec 4) : HeaderWord.Statement (.feedEnd ctx) := Header.ofWord_toWord _ rfl
theorem HeaderWord.generate (ctx : BitVec 4) : HeaderWord.Statement (.generate ctx) := Header.ofWord_toWord _ rfl
theorem HeaderWord.short (ctx : BitVec 4) (t : BitVec 8) (key msg : List Byte) :
    HeaderWord.Statement (.short ctx t key msg) := Header.ofWord_toWord _ rfl

/-- The family PayloadLength: `in_len` of an instruction's word counts its payload (30_encoding.md R77). -/
def PayloadLength.Statement (i : Instr) : Prop := i.wf = true → inLen i.word = i.payload.length

/-- `in_len` of a header's word, by its opcode. -/
theorem inLen_toWord (h : Header) :
    inLen h.toWord =
      if h.op = .initMac ∨ h.op = .initPrf ∨ h.op = .seedPrng ∨ h.op = .verifyMac then 16
      else if h.op = .absorb then h.len.toNat
      else if h.op = .short then 16 + h.len.toNat
      else 0 := by
  obtain ⟨op, len, aux, ctx⟩ := h
  cases op <;> simp [inLen, Header.toWord, Opcode.code]

theorem PayloadLength.nop : PayloadLength.Statement .nop := fun _ => inLen_toWord _
theorem PayloadLength.query (ctx : BitVec 4) : PayloadLength.Statement (.query ctx) := fun _ => inLen_toWord _
theorem PayloadLength.clear (ctx : BitVec 4) : PayloadLength.Statement (.clear ctx) := fun _ => inLen_toWord _
theorem PayloadLength.clone (dst : BitVec 4) (src : BitVec 8) : PayloadLength.Statement (.clone dst src) :=
  fun _ => inLen_toWord _
theorem PayloadLength.initMac (ctx : BitVec 4) (len : BitVec 8) (key : List Byte) :
    PayloadLength.Statement (.initMac ctx len key) := fun h => (inLen_toWord _).trans (by simp [Instr.wf] at h; simp [Instr.header, Instr.payload, h])
theorem PayloadLength.initPrf (ctx : BitVec 4) (len : BitVec 8) (key : List Byte) :
    PayloadLength.Statement (.initPrf ctx len key) := fun h => (inLen_toWord _).trans (by simp [Instr.wf] at h; simp [Instr.header, Instr.payload, h])
theorem PayloadLength.seedPrng (ctx : BitVec 4) (len : BitVec 8) (seed : List Byte) :
    PayloadLength.Statement (.seedPrng ctx len seed) :=
  fun h => (inLen_toWord _).trans (by simp [Instr.wf] at h; simp [Instr.header, Instr.payload, h])
theorem PayloadLength.absorb (ctx : BitVec 4) (bytes : List Byte) : PayloadLength.Statement (.absorb ctx bytes) :=
  fun h => (inLen_toWord _).trans (by simp [Instr.wf] at h; simp [Instr.header, Instr.payload]; omega)
theorem PayloadLength.finalMac (ctx : BitVec 4) : PayloadLength.Statement (.finalMac ctx) := fun _ => inLen_toWord _
theorem PayloadLength.verifyMac (ctx : BitVec 4) (len : BitVec 8) (tag : List Byte) :
    PayloadLength.Statement (.verifyMac ctx len tag) :=
  fun h => (inLen_toWord _).trans (by simp [Instr.wf] at h; simp [Instr.header, Instr.payload, h])
theorem PayloadLength.finalPrf (ctx : BitVec 4) : PayloadLength.Statement (.finalPrf ctx) := fun _ => inLen_toWord _
theorem PayloadLength.read (ctx : BitVec 4) (n : BitVec 8) : PayloadLength.Statement (.read ctx n) :=
  fun _ => inLen_toWord _
theorem PayloadLength.feedEnd (ctx : BitVec 4) : PayloadLength.Statement (.feedEnd ctx) := fun _ => inLen_toWord _
theorem PayloadLength.generate (ctx : BitVec 4) : PayloadLength.Statement (.generate ctx) := fun _ => inLen_toWord _
theorem PayloadLength.short (ctx : BitVec 4) (t : BitVec 8) (key msg : List Byte) :
    PayloadLength.Statement (.short ctx t key msg) :=
  fun h => (inLen_toWord _).trans (by simp [Instr.wf] at h; simp [Instr.header, Instr.payload]; omega)

end Sys2Proof.Laws
end

