-- ==== Sys2Proof/Laws/Port.lean ====
section
/-! SUPPORT. The host port: what `takePayload` makes of a complete, an incomplete and an interrupted command, and the cases
of one step (spec/20_memory.md R53, R54; spec/70_reset_and_hazards.md R270 to R273). -/

namespace Sys2Proof.Machine

/-- All the payload is there, and the body is not interrupted. -/
theorem takePayload_complete (payload : List Byte) (rest : List PortItem) (h : rest.head? ≠ some .resetInBody) :
    takePayload payload.length (payload.map PortItem.byte ++ rest) = .all payload rest := by
  induction payload with
  | nil =>
    cases rest with
    | nil => rfl
    | cons x xs => cases x <;> first | rfl | exact absurd rfl h
  | cons b bs ih => simp only [List.length_cons, List.map_cons, List.cons_append, takePayload, ih]

/-- Bytes are missing: the engine holds. -/
theorem takePayload_waiting {n : Nat} {payload : List Byte} (h : payload.length < n) :
    takePayload n (payload.map PortItem.byte) = .waiting := by
  induction payload generalizing n with
  | nil => cases n with
    | zero => simp at h
    | succ n => rfl
  | cons b bs ih =>
    cases n with
    | zero => simp at h
    | succ n =>
      have := ih (n := n) (by simpa using h)
      simp only [List.map_cons, takePayload, this]

/-- Reset while bytes are missing. -/
theorem takePayload_reset {n : Nat} {payload : List Byte} (rest : List PortItem) (h : payload.length < n) :
    takePayload n (payload.map PortItem.byte ++ .reset :: rest) = .interrupted rest := by
  induction payload generalizing n with
  | nil => cases n with
    | zero => simp at h
    | succ n => rfl
  | cons b bs ih =>
    cases n with
    | zero => simp at h
    | succ n =>
      have := ih (n := n) (by simpa using h)
      simp only [List.map_cons, List.cons_append, takePayload, this]

/-- Reset while the body runs, or while bytes are missing. -/
theorem takePayload_resetInBody {n : Nat} {payload : List Byte} (rest : List PortItem) (h : payload.length ≤ n) :
    takePayload n (payload.map PortItem.byte ++ .resetInBody :: rest) = .interrupted rest := by
  induction payload generalizing n with
  | nil => cases n <;> rfl
  | cons b bs ih =>
    cases n with
    | zero => simp at h
    | succ n =>
      have := ih (n := n) (by simpa using h)
      simp only [List.map_cons, List.cons_append, takePayload, this]

/-- What a collected payload is made of: exactly `n` bytes, in the order they came. -/
theorem takePayload_all {n : Nat} {items : List PortItem} {bytes : List Byte} {rest : List PortItem}
    (h : takePayload n items = .all bytes rest) :
    bytes.length = n ∧ items = bytes.map PortItem.byte ++ rest := by
  induction n generalizing items bytes with
  | zero =>
    cases items with
    | nil => simp only [takePayload, Payload.all.injEq] at h; obtain ⟨rfl, rfl⟩ := h; simp
    | cons x xs =>
      cases x <;> simp only [takePayload, Payload.all.injEq, reduceCtorEq] at h <;> obtain ⟨rfl, rfl⟩ := h <;> simp
  | succ n ih =>
    cases items with
    | nil => simp [takePayload] at h
    | cons x xs =>
      cases x <;> simp only [takePayload, reduceCtorEq] at h
      rename_i b
      split at h
      · rename_i bs r hb
        simp only [Payload.all.injEq] at h
        obtain ⟨rfl, rfl⟩ := h
        obtain ⟨h1, h2⟩ := ih hb
        exact ⟨by simp [h1], by simp [h2]⟩
      all_goals cases h

/-- What an interrupted payload is made of: some bytes, then the reset; if all bytes were there, the reset fell in the
body. -/
theorem takePayload_interrupted {n : Nat} {items : List PortItem} {rest : List PortItem}
    (h : takePayload n items = .interrupted rest) :
    ∃ bytes : List Byte,
      (bytes.length < n ∧ items = bytes.map PortItem.byte ++ .reset :: rest) ∨
      (bytes.length ≤ n ∧ items = bytes.map PortItem.byte ++ .resetInBody :: rest) := by
  induction n generalizing items with
  | zero =>
    cases items with
    | nil => cases h
    | cons x xs => cases x <;> cases h; exact ⟨[], .inr ⟨Nat.le_refl _, rfl⟩⟩
  | succ n ih =>
    cases items with
    | nil => cases h
    | cons x xs =>
      cases x <;> simp only [takePayload, reduceCtorEq, Payload.interrupted.injEq] at h
      · rename_i b
        split at h <;> cases h
        rename_i hb
        obtain ⟨bytes, ⟨h1, rfl⟩ | ⟨h1, rfl⟩⟩ := ih hb
        · exact ⟨b :: bytes, .inl ⟨Nat.succ_lt_succ h1, rfl⟩⟩
        · exact ⟨b :: bytes, .inr ⟨Nat.succ_le_succ h1, rfl⟩⟩
      · subst h; exact ⟨[], .inl ⟨Nat.succ_pos _, rfl⟩⟩
      · subst h; exact ⟨[], .inr ⟨Nat.zero_le _, rfl⟩⟩

/-- What a decoded word and payload give. -/
theorem decode_cases (w : BitVec 32) (payload : List Byte) :
    (∃ h, Header.ofWord w = .ok h ∧ decode w payload = .ok (h.instr payload)) ∨
    (∃ e, Header.ofWord w = .error e ∧ e ≠ .truncated ∧ decode w payload = .error e) := by
  unfold decode
  cases hw : Header.ofWord w with
  | ok h => exact .inl ⟨h, rfl, rfl⟩
  | error e =>
    refine .inr ⟨e, rfl, ?_, rfl⟩
    unfold Header.ofWord at hw
    split at hw
    · cases hw; decide
    · split at hw <;> cases hw; decide

/-- Everything a step that has a next state can be: the reset that arrives, one instruction's meaning, or the fault of a word that is no
instruction. -/
theorem step_next_cases {s t : State} (h : step s = .next t) :
    (∃ rest, ResetArrives s rest ∧ t = resetWith Config.hw rest s) ∨
    (∃ w payload rest, payload.length = inLen w ∧ s.input = commandItems w payload ++ rest ∧
      ((∃ i, decode w payload = .ok i ∧ exec i { s with input := rest } = .next t) ∨
        (∃ e, decode w payload = .error e ∧ t = frameRejected w e { s with input := rest }))) := by
  unfold step stepWith at h
  split at h
  · cases h
  · rename_i hin; cases h; exact .inl ⟨_, .inl hin, rfl⟩
  · rename_i hin; cases h; exact .inl ⟨_, .inr (.inl hin), rfl⟩
  · cases h
  · rename_i w items hin
    split at h
    · rename_i payload rest hp
      obtain ⟨hl, hi⟩ := takePayload_all hp
      refine .inr ⟨w, payload, rest, hl, ?_, ?_⟩
      · rw [hin, hi]; rfl
      · unfold runCommand at h
        split at h
        · rename_i i hd; exact .inl ⟨i, hd, h⟩
        · rename_i e hd; cases h; exact .inr ⟨e, hd, rfl⟩
    · cases h
    · rename_i hp
      cases h
      obtain ⟨bytes, ⟨h1, h2⟩ | ⟨h1, h2⟩⟩ := takePayload_interrupted hp
      · exact .inl ⟨_, .inr (.inr ⟨w, bytes, .inl ⟨h1, by rw [hin, h2]; rfl⟩⟩), rfl⟩
      · exact .inl ⟨_, .inr (.inr ⟨w, bytes, .inr ⟨h1, by rw [hin, h2]; rfl⟩⟩), rfl⟩
    · cases h

/-- The frame around a word the decoder rejects (R237). -/
theorem frameRejected_cases (w : BitVec 32) (e : DecodeError) (s : State) :
    (s.fault = true ∧ frameRejected w e s = rejected s) ∨
    (s.fault = false ∧ frameRejected w e s = faulted s w (decodeCause e)) := by
  unfold frameRejected
  by_cases hf : s.fault = true
  · exact .inl ⟨hf, by rw [if_pos hf, respondRejected_faulted hf]⟩
  · exact .inr ⟨by simpa using hf, by rw [if_neg hf, respondRejected_faultEntry]⟩

end Sys2Proof.Machine
end

