-- ==== Sys2Proof/Laws/Check.lean ====
section
/-! SUPPORT. CHECK on the command word as a number (spec/60_exceptions.md R238): the decoder and `check` together are the
ordered tests of `checkOrder`; the fields of a response word; a delivered command; and how a command that meets its checks
completes. -/

namespace Sys2Proof.Machine

/-! ### The fields as numbers -/

/-- The fields of R61 are the digits of the word. -/
theorem field_nat (w : BitVec 32) :
    (opField w).toNat = opOf w ∧ (lenField w).toNat = lenOf w ∧ (auxField w).toNat = auxOf w ∧
      (ctxField w).toNat = ctxOf w ∧ (rsvdField w).toNat = rsvdOf w := by
  simp only [opField, lenField, auxField, ctxField, rsvdField, BitVec.extractLsb'_toNat, opOf, lenOf, auxOf, ctxOf,
    rsvdOf, Nat.shiftRight_eq_div_pow]
  have := w.isLt
  norm_num
  omega

/-- The opcode map and the list of assigned values agree (R67). -/
theorem ofCode?_none_iff (op : BitVec 8) : Opcode.ofCode? op = none ↔ op.toNat ∉ assignedOps := by
  revert op; decide +kernel

/-- An assigned OP value selects a command. -/
theorem ofCode?_isSome {w : BitVec 32} (h : opOf w ∈ assignedOps) : ∃ o, Opcode.ofCode? (opField w) = some o := by
  cases hc : Opcode.ofCode? (opField w) with
  | none => rw [ofCode?_none_iff, (field_nat w).1] at hc; exact absurd h hc
  | some o => exact ⟨o, rfl⟩

/-- The OP value of a selected command. -/
theorem opOf_eq_code {w : BitVec 32} {o : Opcode} (h : Opcode.ofCode? (opField w) = some o) : opOf w = o.code.toNat := by
  rw [code_of_ofCode? h, (field_nat w).1]

theorem bitVec_eq_zero_iff {n : Nat} (x : BitVec n) : x = 0#n ↔ x.toNat = 0 :=
  ⟨fun h => by rw [h]; simp, fun h => BitVec.eq_of_toNat_eq (by simpa using h)⟩

/-- Step 2 of CHECK, said of the decoder's fields and of the word's digits. -/
theorem reserved_iff {w : BitVec 32} {o : Opcode} (h : Opcode.ofCode? (opField w) = some o) :
    (rsvdField w != 0 || o.reservedFieldSet (lenField w) (auxField w) (ctxField w)) = true ↔
      ∃ f ∈ mustBeZero w, f ≠ 0 := by
  obtain ⟨h1, h2, h3, h4, h5⟩ := field_nat w
  have ho := opOf_eq_code h
  cases o <;> simp [Opcode.code] at ho <;>
    simp [mustBeZero, ho, Opcode.reservedFieldSet, bitVec_eq_zero_iff, h2, h3, h4, h5] <;> omega

/-- Everything reading a command word's header can give (steps 1 and 2 of CHECK). -/
theorem ofWord_cases (w : BitVec 32) :
    (opOf w ∉ assignedOps ∧ Header.ofWord w = .error .illegalOpcode) ∨
    (opOf w ∈ assignedOps ∧ (∃ f ∈ mustBeZero w, f ≠ 0) ∧ Header.ofWord w = .error .reservedField) ∨
    (opOf w ∈ assignedOps ∧ (¬ ∃ f ∈ mustBeZero w, f ≠ 0) ∧
      ∃ o, Opcode.ofCode? (opField w) = some o ∧
        Header.ofWord w = .ok ⟨o, lenField w, auxField w, ctxField w⟩) := by
  by_cases h : opOf w ∈ assignedOps
  · obtain ⟨o, ho⟩ := ofCode?_isSome h
    by_cases hr : ∃ f ∈ mustBeZero w, f ≠ 0
    · refine .inr (.inl ⟨h, hr, ?_⟩)
      unfold Header.ofWord; rw [ho]; simp only; rw [if_pos ((reserved_iff ho).2 hr)]
    · refine .inr (.inr ⟨h, hr, o, ho, ?_⟩)
      unfold Header.ofWord; rw [ho]; simp only; rw [if_neg (fun x => hr ((reserved_iff ho).1 x))]
  · refine .inl ⟨h, ?_⟩
    have := (ofCode?_none_iff (opField w)).2 (by rwa [(field_nat w).1])
    unfold Header.ofWord; rw [this]

/-- A header read from a word, and the payload `in_len` counts, make a well-formed instruction with that header and that
payload. -/
theorem header_instr (h : Header) (payload : List Byte) (hr : h.op.reservedFieldSet h.len h.aux h.ctx = false)
    (hl : payload.length = inLen h.toWord) :
    (h.instr payload).wf = true ∧ (h.instr payload).header = h ∧ (h.instr payload).payload = payload := by
  obtain ⟨op, len, aux, ctx⟩ := h
  rw [Laws.inLen_toWord] at hl
  cases op <;> simp [Opcode.reservedFieldSet, Header.instr, Instr.wf, Instr.header, Instr.payload] at * <;> simp_all
  · omega
  · have h : payload.length - 16 = len.toNat := by omega
    omega

/-! ### CHECK -/

/-- The admission table, as `admits` has it and as a list of pairs (R239). -/
theorem admits_eq (o : Opcode) (sl : Slot) : admits o sl.phase sl.persona = admittedIn o.code.toNat sl := by
  obtain ⟨_, _, _, _, _, p, q⟩ := sl
  cases o <;> cases p <;> cases q <;> rfl

/-- A word the decoder rejects: the first cause that applies is the decoder's. -/
theorem checkOrder_of_error {w : BitVec 32} {e : DecodeError} (s : State) (h : Header.ofWord w = .error e) :
    checkOrder w s = decodeCause e := by
  rcases ofWord_cases w with ⟨h1, h2⟩ | ⟨h1, h2, h3⟩ | ⟨_, _, o, _, h3⟩
  · rw [h2] at h; cases h; simp [checkOrder, h1, decodeCause]
  · rw [h3] at h; cases h; simp only [checkOrder, h1, not_true, if_false]; rw [if_pos h2]; rfl
  · rw [h3] at h; cases h

/-- A word the decoder passes: the first cause that applies is `check`'s. -/
theorem checkOrder_of_ok {w : BitVec 32} {h : Header} (s : State) (hw : Header.ofWord w = .ok h) :
    checkOrder w s = check Config.hw h s := by
  rcases ofWord_cases w with ⟨h1, h2⟩ | ⟨h1, h2, h3⟩ | ⟨h1, h2, o, ho, h3⟩
  · rw [h2] at hw; cases hw
  · rw [h3] at hw; cases hw
  · rw [h3] at hw; cases hw
    obtain ⟨f1, f2, f3, f4, f5⟩ := field_nat w
    have hop := opOf_eq_code ho
    simp only [checkOrder, check, h1, not_true, if_false, if_neg h2, f4, admits_eq, ← hop]
    have e1 : (Config.hw.nCtx ≤ ctxOf w ∨ opOf w = 3 ∧ Config.hw.nCtx ≤ auxOf w) ↔
        slotsExist Config.hw ⟨o, lenField w, auxField w, ctxField w⟩ = false := by
      cases o <;> simp [Opcode.code] at hop <;> simp [slotsExist, f4, f3, hop]
      omega
    by_cases hs : slotsExist Config.hw ⟨o, lenField w, auxField w, ctxField w⟩ = false
    · rw [if_pos (e1.2 hs), if_pos hs]
    rw [if_neg (fun h => hs (e1.1 h)), if_neg hs]
    have l16 : lenField w = 16#8 ↔ lenOf w = 16 := by
      rw [← f2]; exact ⟨fun h => by rw [h]; rfl, fun h => BitVec.eq_of_toNat_eq h⟩
    cases o <;> simp [Opcode.code] at hop <;> simp [lengthCause, hop, f2, f3, shortMax, l16] <;> split_ifs <;>
      first | rfl | omega

/-- CHECK of a whole word is the ordered tests of R238. -/
theorem checkWord_eq_checkOrder (w : BitVec 32) (s : State) : checkWord Config.hw w s = checkOrder w s := by
  unfold checkWord
  cases h : Header.ofWord w with
  | error e => exact (checkOrder_of_error s h).symm
  | ok hd => exact (checkOrder_of_ok s h).symm

/-- No word the port's decoder rejects is without a cause. -/
theorem decodeCause_ne_none {e : DecodeError} (h : e ≠ .truncated) : decodeCause e ≠ .none := by
  cases e <;> simp [decodeCause] at *

/-! ### Response words -/

/-- Every field of a response word (20_memory.md R55). -/
theorem responseWord_fields (ok f : Bool) (v : Verdict) (c : Cause) (p q : BitVec 3) :
    (responseWord ok f v c p q).getLsbD 0 = ok ∧ (responseWord ok f v c p q).getLsbD 1 = f ∧
    (responseWord ok f v c p q).extractLsb' 8 8 = causeCode c ∧ (responseWord ok f v c p q).extractLsb' 4 4 = 0 ∧
    (responseWord ok f v c p q).getLsbD 19 = false ∧ (responseWord ok f v c p q).extractLsb' 23 9 = 0 ∧
    (responseWord ok f v c p q).extractLsb' 16 3 = p ∧ (responseWord ok f v c p q).extractLsb' 20 3 = q ∧
    (responseWord ok f v c p q).getLsbD 2 = (v == .pass) ∧ (responseWord ok f v c p q).getLsbD 3 = (v == .fail) := by
  revert p q; cases ok <;> cases f <;> cases v <;> cases c <;> decide +kernel

/-! ### A delivered command -/

/-- A step on a delivered command runs it (20_memory.md R53). -/
theorem step_of_delivers {s : State} {w : BitVec 32} {payload : List Byte} {rest : List PortItem}
    (h : Delivers s w payload rest) : step s = runCommand exec w payload { s with input := rest } := by
  obtain ⟨h1, h2, h3⟩ := h
  unfold step stepWith
  rw [h2]
  simp only [commandItems, List.cons_append]
  rw [← h1, takePayload_complete payload rest h3]

/-! ### Completing and faulting, from the operands and the slot alone -/

/-- A slot that is addressed exists. -/
theorem slotsExist_of {i : Instr} (hs : slotOf i < Config.hw.nCtx)
    (hcl : ∀ d a, i = .clone d a → a.toNat < Config.hw.nCtx) : slotsExist Config.hw i.header = true := by
  have hs' : i.header.ctx.toNat < Config.hw.nCtx := hs
  simp only [slotsExist, hs']
  cases i <;> simp [Instr.header]
  exact decide_eq_true (hcl _ _ rfl)

/-- A command other than VERIFY_MAC that passes its checks completes: its slot, the response word and the output are its
body's. -/
theorem exec_completes {i : Instr} {s : State} {sl : Slot} (hr : Running s) (hs : slotOf i < Config.hw.nCtx)
    (hcl : ∀ d a, i = .clone d a → a.toNat < Config.hw.nCtx) (hl : lengthCause i.header = .none)
    (e : s.slotAt (slotOf i) = sl) (ha : admits i.header.op sl.phase sl.persona = true) {r : BodyResult}
    (hb : bodyOf Config.hw i s sl = r) (hv : r.verdict = .none) {W : BitVec 32}
    (hW : okWord r.slot.phase r.slot.persona = W) :
    exec i s = .next (answered s (slotOf i) r.slot W r.out) := by
  subst hW
  rw [exec_of_check hr, e, hb, hv, responseWord_ok]
  rw [check_eq_none]
  exact ⟨slotsExist_of hs hcl, hl, by rw [show s.slotAt i.header.ctx.toNat = sl from e]; exact ha⟩

/-- A command with a wrong length faults with that cause. -/
theorem exec_length_fault {i : Instr} {s : State} {c : Cause} (hr : Running s) (hs : slotOf i < Config.hw.nCtx)
    (hcl : ∀ d a, i = .clone d a → a.toNat < Config.hw.nCtx) (hl : lengthCause i.header = c) (hc : c ≠ .none) :
    exec i s = .next (faulted s i.word c) := by
  have : check Config.hw i.header s = c := by
    unfold check
    rw [if_neg (by simp [slotsExist_of hs hcl]), hl, if_pos hc]
  rw [exec_eq_frame, frame_of_violation hr.2.1 (by rw [this]; exact hc), this]; rfl

end Sys2Proof.Machine
end

