-- ==== Sys2Proof/Laws/Config.lean ====
section
/-! SUPPORT. The hardware's IVs are no special family: every family of pairwise distinct IVs comes from some permutation
of the words in the way `Config.hwIv` comes from `Config.hwIvOrder` (log 2). -/

namespace Sys2Proof.Laws.Config

/-- Every injective family of IVs is `fun n => σ (number of n)` for a permutation σ of the 64-bit words. -/
theorem every_distinct_family (iv : IvName → Word) (h : Function.Injective iv) :
    ∃ σ : Equiv.Perm Word, ∀ n, iv n = σ (BitVec.ofNat 64 (Config.ivNumber n)) := by
  classical
  have hn : Function.Injective fun n => (BitVec.ofNat 64 (Sys2Proof.Config.ivNumber n) : Word) := by
    intro a b hab
    have h' := congrArg BitVec.toNat hab
    simp only [BitVec.toNat_ofNat] at h'
    rw [Nat.mod_eq_of_lt (Sys2Proof.Config.ivNumber_lt a), Nat.mod_eq_of_lt (Sys2Proof.Config.ivNumber_lt b)] at h'
    exact Sys2Proof.Config.ivNumber_injective h'
  have : Finite Word := Finite.of_injective (fun w : Word => w.toFin) fun a b hab => BitVec.eq_of_toFin_eq hab
  have := Fintype.ofFinite Word
  let e := (Equiv.ofInjective _ hn).symm.trans (Equiv.ofInjective _ h)
  refine ⟨e.extendSubtype, fun n => ?_⟩
  rw [Equiv.extendSubtype_apply_of_mem e _ ⟨n, rfl⟩]
  simp only [e, Equiv.trans_apply]
  have hx : (Equiv.ofInjective _ hn).symm ⟨BitVec.ofNat 64 (Sys2Proof.Config.ivNumber n), ⟨n, rfl⟩⟩ = n :=
    Equiv.ofInjective_symm_apply hn n
  rw [hx]; rfl

end Sys2Proof.Laws.Config
end

