-- ==== Sys2Proof/Laws/Read.lean ====
section
/-! SUPPORT. READ in closed form (spec/44_prf.md R163, R164): the bytes it delivers are the next ones of the slot's output
stream, and where it leaves the slot. -/

namespace Sys2Proof.Machine

/-- The slot is a reader that has delivered the first `n` bytes of the stream that started from state words `s0`
(R164): S is `P^ceil(n/16)(s0)`, and OBUF and SQPOS hold the rest of the last block. -/
structure Delivered (cfg : Config) (s0 : Words) (n : Nat) (sl : Slot) : Prop where
  words : sl.s = cfg.perm^[(n + 15) / 16] s0
  pos : sl.sqPos.val = if n = 0 then 16 else (n - 1) % 16 + 1
  block : n ≠ 0 → sl.obuf = extract (cfg.perm^[(n - 1) / 16] s0)

/-- Byte `n` of the stream that starts from `s0`. -/
def streamByte (cfg : Config) (s0 : Words) (n : Nat) : Byte := (extract (cfg.perm^[n / 16] s0))[n % 16]

/-- One turn of READ's loop (R163). -/
theorem Delivered.nextByte {cfg : Config} {s0 : Words} {n : Nat} {sl : Slot} (h : Delivered cfg s0 n sl) :
    (nextByte cfg sl).1 = streamByte cfg s0 n ∧ Delivered cfg s0 (n + 1) (nextByte cfg sl).2 := by
  have hp := h.pos
  unfold Machine.nextByte
  by_cases hk : sl.sqPos.val < 16
  · have hn : n ≠ 0 := by rintro rfl; simp at hp; omega
    rw [if_neg hn] at hp
    have hq : (n - 1) / 16 = n / 16 := by omega
    have hm : sl.sqPos.val = n % 16 := by omega
    simp only [hk, dite_true, deliverByte]
    refine ⟨?_, ?_, ?_, ?_⟩
    · have := h.block hn
      simp only [streamByte, this, hq, Fin.getElem_fin, hm]
    · simp only [h.words]; congr 1; omega
    · simp only [Fin.val_succ]; rw [if_neg (by omega)]; omega
    · intro _; simp only [h.block hn, Nat.add_sub_cancel, hq]
  · have hm : n % 16 = 0 := by
      by_cases hn : n = 0
      · omega
      · rw [if_neg hn] at hp; omega
    simp only [hk, dite_false, deliverByte]
    have hw : (n + 15) / 16 = n / 16 := by omega
    refine ⟨?_, ?_, ?_, ?_⟩
    · simp only [squeezeBlock_obuf, streamByte, h.words, hw, hm]; rfl
    · simp only [squeezeBlock_s, h.words, hw]
      rw [show (n + 1 + 15) / 16 = n / 16 + 1 by omega, Function.iterate_succ_apply']
    · rw [if_neg (by omega)]; simp; omega
    · intro _; simp only [squeezeBlock_obuf, h.words, hw, Nat.add_sub_cancel]

/-- READ's whole loop (R163, R164). -/
theorem Delivered.readBytes {cfg : Config} {s0 : Words} {n : Nat} {sl : Slot} (h : Delivered cfg s0 n sl) (k : Nat) :
    (readBytes cfg k sl).1 = (List.range k).map (fun j => streamByte cfg s0 (n + j)) ∧
      Delivered cfg s0 (n + k) (readBytes cfg k sl).2 := by
  induction k generalizing n sl with
  | zero => exact ⟨rfl, h⟩
  | succ k ih =>
    obtain ⟨hb, hd⟩ := h.nextByte
    obtain ⟨ib, id⟩ := ih hd
    refine ⟨?_, ?_⟩
    · simp only [Machine.readBytes, hb, ib, List.range_succ_eq_map, List.map_cons, List.map_map, Nat.add_zero]
      congr 1
      apply List.map_congr_left
      intro j _
      simp only [Function.comp, Nat.succ_eq_add_one]
      congr 1; omega
    · simp only [Machine.readBytes]
      rw [show n + (k + 1) = n + 1 + k by omega]; exact id

/-- READ touches no other field of the slot. -/
theorem readBytes_frame (cfg : Config) (k : Nat) (sl : Slot) :
    (readBytes cfg k sl).2.buf = sl.buf ∧ (readBytes cfg k sl).2.bufLen = sl.bufLen ∧
      (readBytes cfg k sl).2.phase = sl.phase ∧ (readBytes cfg k sl).2.persona = sl.persona := by
  have one : ∀ sl : Slot, (nextByte cfg sl).2.buf = sl.buf ∧ (nextByte cfg sl).2.bufLen = sl.bufLen ∧
      (nextByte cfg sl).2.phase = sl.phase ∧ (nextByte cfg sl).2.persona = sl.persona := by
    intro sl; unfold nextByte deliverByte; split <;> simp
  induction k generalizing sl with
  | zero => exact ⟨rfl, rfl, rfl, rfl⟩
  | succ k ih =>
    obtain ⟨h1, h2, h3, h4⟩ := one sl
    obtain ⟨g1, g2, g3, g4⟩ := ih (nextByte cfg sl).2
    exact ⟨g1.trans h1, g2.trans h2, g3.trans h3, g4.trans h4⟩

/-- READ delivers as many bytes as it is asked for. -/
@[simp] theorem readBytes_length (cfg : Config) (k : Nat) (sl : Slot) : (readBytes cfg k sl).1.length = k := by
  induction k generalizing sl with
  | zero => rfl
  | succ k ih => simp [readBytes, ih]

/-- Two reads in a row are one read of their sum (R165). -/
theorem readBytes_add (cfg : Config) (a b : Nat) (sl : Slot) :
    readBytes cfg (a + b) sl =
      ((readBytes cfg a sl).1 ++ (readBytes cfg b (readBytes cfg a sl).2).1,
        (readBytes cfg b (readBytes cfg a sl).2).2) := by
  induction a generalizing sl with
  | zero => simp [readBytes]
  | succ a ih => rw [Nat.succ_add]; simp only [readBytes, ih]; rfl

/-- Concatenated blocks, the stream's bytes one by one. -/
theorem streamOf_eq_bytes (cfg : Config) (s0 : Words) (n : Nat) :
    streamOf cfg.perm s0 n = (List.range n).map (streamByte cfg s0) := by
  have blocks : ∀ m, (((List.range m).map fun k => outputBlock (cfg.perm^[k] s0)).flatten) =
      (List.range (16 * m)).map (streamByte cfg s0) := by
    intro m
    induction m with
    | zero => rfl
    | succ m ih =>
      rw [List.range_succ, List.map_append, List.flatten_append, ih, Nat.mul_succ, List.range_add, List.map_append]
      congr 1
      simp only [List.map_singleton, List.flatten_singleton, List.map_map]
      rw [← extract_toList]
      apply List.ext_getElem
      · simp
      · intro i h1 h2
        have hi : i < 16 := by simpa using h1
        simp [streamByte, show (16 * m + i) / 16 = m by omega, Nat.mod_eq_of_lt hi]
        rfl
  rw [streamOf, blocks, ← List.map_take, List.take_range, Nat.min_eq_left (by omega)]

/-- READ of no more bytes than OBUF still holds: they come from it, and nothing is permuted (R163). -/
theorem readBytes_of_buffered (cfg : Config) (k : Nat) (sl : Slot) (hk : k ≤ 16 - sl.sqPos.val) :
    (readBytes cfg k sl).1 = (sl.obuf.toList.drop sl.sqPos.val).take k ∧ (readBytes cfg k sl).2.obuf = sl.obuf ∧
      (readBytes cfg k sl).2.sqPos.val = sl.sqPos.val + k ∧ (readBytes cfg k sl).2.s = sl.s := by
  induction k generalizing sl with
  | zero => simp [readBytes]
  | succ k ih =>
    have hlt : sl.sqPos.val < 16 := by omega
    have hn : nextByte cfg sl = (sl.obuf[sl.sqPos.val], { sl with sqPos := Fin.succ ⟨sl.sqPos.val, hlt⟩ }) := by
      unfold nextByte; rw [dif_pos hlt]; rfl
    obtain ⟨i1, i2, i3, i4⟩ := ih { sl with sqPos := Fin.succ ⟨sl.sqPos.val, hlt⟩ } (by simp; omega)
    simp only [readBytes, hn]
    refine ⟨?_, i2, ?_, i4⟩
    · rw [i1, List.drop_eq_getElem_cons (i := sl.sqPos.val) (by simp; omega)]
      simp
    · rw [i3]; simp; omega

end Sys2Proof.Machine
end

