-- ==== Sys2Proof/Laws/Run.lean ====
section
/-! SUPPORT. Runs of commands in any configuration (`runAllIn`), and what one command of such a run leaves alone
(spec/10_state.md R17; spec/60_exceptions.md R240). -/

namespace Sys2Proof.Machine

@[simp] theorem runAllIn_nil (cfg : Config) (s : State) : runAllIn cfg [] s = s := rfl
@[simp] theorem runAllIn_cons (cfg : Config) (i : Instr) (is : List Instr) (s : State) :
    runAllIn cfg (i :: is) s = runAllIn cfg is (runIn cfg i s) := rfl
theorem runAllIn_append (cfg : Config) (is js : List Instr) (s : State) :
    runAllIn cfg (is ++ js) s = runAllIn cfg js (runAllIn cfg is s) := List.foldl_append

/-- Everything one command can do in any configuration: complete, be rejected by a faulted engine, or fault. -/
theorem runIn_cases (cfg : Config) (i : Instr) (s : State) :
    (check cfg i.header s = .none ∧ (s.fault = true → runsWhileFaulted i.header.op = true) ∧
      runIn cfg i s = complete i.header (bodyOf cfg i s) s) ∨
    (s.fault = true ∧ (runsWhileFaulted i.header.op = false ∨ check cfg i.header s ≠ .none) ∧
      runIn cfg i s = rejected s) ∨
    (s.fault = false ∧ check cfg i.header s ≠ .none ∧
      runIn cfg i s = faulted s i.header.toWord (check cfg i.header s)) := by
  rw [runIn_eq_frame]; exact frame_cases _ _ _ _

/-- A command writes no slot but the one it addresses (R17). -/
theorem slotAt_runIn_of_ne {cfg : Config} {i : Instr} {c : Nat} (h : c ≠ slotOf i) (s : State) :
    (runIn cfg i s).slotAt c = s.slotAt c := by
  rcases runIn_cases cfg i s with ⟨-, -, e⟩ | ⟨-, -, e⟩ | ⟨-, -, e⟩ <;> rw [e]
  · exact slotAt_setSlot_of_ne h _
  · rfl
  · rfl

/-- A command keeps the number of slots (R17). -/
@[simp] theorem slots_length_runIn (cfg : Config) (i : Instr) (s : State) :
    (runIn cfg i s).slots.length = s.slots.length := by
  rcases runIn_cases cfg i s with ⟨-, -, e⟩ | ⟨-, -, e⟩ | ⟨-, -, e⟩ <;> rw [e]
  · exact List.length_set
  · rfl
  · rfl

/-- No command clears FAULT (60_exceptions.md R242). -/
theorem fault_of_runIn {cfg : Config} {i : Instr} {s : State} (h : (runIn cfg i s).fault = false) : s.fault = false := by
  rcases runIn_cases cfg i s with ⟨-, -, e⟩ | ⟨-, -, e⟩ | ⟨h', -, -⟩
  · rw [e] at h; exact h
  · rw [e] at h; exact h
  · exact h'

/-- A run that ends with FAULT = 0 began with it. -/
theorem fault_of_runAllIn {cfg : Config} {is : List Instr} {s : State} (h : (runAllIn cfg is s).fault = false) :
    s.fault = false := by
  induction is generalizing s with
  | nil => exact h
  | cons i is ih => exact fault_of_runIn (ih h)

end Sys2Proof.Machine
end

