-- ==== Sys2Proof/Tests/Slice0.lean ====
section
/-! SUPPORT. Tests. Expected values are the spec's own: the worked encodings of spec/30_encoding.md R84 and the vectors of
spec/95_test_vectors.md, under its test configuration. Then, for every statement with hypotheses, a witness that meets
them. -/

namespace Sys2Proof.Tests

open Sys2Proof Sys2Proof.Machine

set_option Elab.async false

/-! ### WellFormed: one ill-formed term for each check, refused -/

theorem test_wf_key_15 : (Instr.initMac 0 16 (List.replicate 15 0)).wf = false := by decide
theorem test_wf_prf_key_17 : (Instr.initPrf 0 16 (List.replicate 17 0)).wf = false := by decide
theorem test_wf_seed_empty : (Instr.seedPrng 0 16 []).wf = false := by decide
theorem test_wf_absorb_256 : (Instr.absorb 0 (List.replicate 256 0)).wf = false := by decide +kernel
theorem test_wf_tag_15 : (Instr.verifyMac 0 16 (List.replicate 15 0)).wf = false := by decide
theorem test_wf_short_key_15 : (Instr.short 0 16 (List.replicate 15 0) []).wf = false := by decide
theorem test_wf_short_message_256 : (Instr.short 0 16 (List.replicate 16 0) (List.replicate 256 0)).wf = false := by
  decide +kernel

theorem test_asm_clone_source : (Instr.clone 0 16).assembles = false := by decide
theorem test_asm_mac_len : (Instr.initMac 0 15 (List.replicate 16 0)).assembles = false := by decide
theorem test_asm_mac_key : (Instr.initMac 0 16 (List.replicate 15 0)).assembles = false := by decide
theorem test_asm_prf_len : (Instr.initPrf 0 0 (List.replicate 16 0)).assembles = false := by decide
theorem test_asm_prf_key : (Instr.initPrf 0 16 (List.replicate 17 0)).assembles = false := by decide
theorem test_asm_seed_len : (Instr.seedPrng 0 17 (List.replicate 16 0)).assembles = false := by decide
theorem test_asm_seed : (Instr.seedPrng 0 16 []).assembles = false := by decide
theorem test_asm_absorb_256 : (Instr.absorb 0 (List.replicate 256 0)).assembles = false := by decide +kernel
theorem test_asm_tag_len : (Instr.verifyMac 0 8 (List.replicate 16 0)).assembles = false := by decide
theorem test_asm_tag : (Instr.verifyMac 0 16 (List.replicate 15 0)).assembles = false := by decide
theorem test_asm_short_t : (Instr.short 0 17 (List.replicate 16 0) []).assembles = false := by decide
theorem test_asm_short_key : (Instr.short 0 16 (List.replicate 15 0) []).assembles = false := by decide
theorem test_asm_short_message : (Instr.short 0 16 (List.replicate 16 0) (List.replicate 17 0)).assembles = false := by
  decide

/-! ### Decoding: each constructor's word, written out from R61 and R67 (`rrrr cccc aaaaaaaa llllllll oooooooo`); those of
R84 are named there -/

/-- K0 of 95_test_vectors.md: 00 01 02 ... 0f. -/
def k0 : List Byte := [0x00, 0x01, 0x02, 0x03, 0x04, 0x05, 0x06, 0x07, 0x08, 0x09, 0x0a, 0x0b, 0x0c, 0x0d, 0x0e, 0x0f]

/-- K of 95_test_vectors.md: "0123456789abcdef". -/
def k : List Byte := [0x30, 0x31, 0x32, 0x33, 0x34, 0x35, 0x36, 0x37, 0x38, 0x39, 0x61, 0x62, 0x63, 0x64, 0x65, 0x66]

theorem test_decode_nop : decode 0b0000_0000_00000000_00000000_00000000 [] = .ok .nop := by rfl
theorem test_decode_query : decode 0b0000_0010_00000000_00000000_00000001 [] = .ok (.query 2) := by rfl
theorem test_decode_clear : decode 0b0000_1111_00000000_00000000_00000010 [] = .ok (.clear 15) := by rfl
theorem test_decode_clone : decode 0b0000_0001_00000000_00000000_00000011 [] = .ok (.clone 1 0) := by rfl
theorem test_decode_initMac : decode 0b0000_0000_00000000_00010000_00010000 k = .ok (.initMac 0 16 k) := by rfl
theorem test_decode_initPrf : decode 0b0000_0011_00000000_00010000_00010001 k = .ok (.initPrf 3 16 k) := by rfl
theorem test_decode_seedPrng : decode 0b0000_0001_00000000_00010000_00010010 k = .ok (.seedPrng 1 16 k) := by rfl
theorem test_decode_absorb :
    decode 0b0000_0000_00000000_00000011_00100000 [0x61, 0x62, 0x63] = .ok (.absorb 0 [0x61, 0x62, 0x63]) := by rfl
theorem test_decode_finalMac : decode 0b0000_0000_00000000_00000000_00110000 [] = .ok (.finalMac 0) := by rfl
theorem test_decode_verifyMac : decode 0b0000_0000_00000000_00010000_00110001 k = .ok (.verifyMac 0 16 k) := by rfl
theorem test_decode_finalPrf : decode 0b0000_0011_00000000_00000000_00111000 [] = .ok (.finalPrf 3) := by rfl
theorem test_decode_read : decode 0b0000_0011_00000000_00010100_01000000 [] = .ok (.read 3 20) := by rfl
theorem test_decode_feedEnd : decode 0b0000_0001_00000000_00000000_01010000 [] = .ok (.feedEnd 1) := by rfl
theorem test_decode_generate : decode 0b0000_0001_00000000_00000000_01010001 [] = .ok (.generate 1) := by rfl
theorem test_decode_short :
    decode 0b0000_0000_00010000_00000101_01100000 (k ++ [0x68, 0x65, 0x6c, 0x6c, 0x6f]) =
      .ok (.short 0 16 k [0x68, 0x65, 0x6c, 0x6c, 0x6f]) := by rfl

/-- `in_len` of the rows of R84: 255 bytes of ABSORB, and 16 + 5 of SHORT. -/
theorem test_inLen : inLen 0x0000FF20 = 255 ∧ inLen 0x00100560 = 21 ∧ inLen 0x00001031 = 16 ∧ inLen 0x03001440 = 0 := by
  decide

/-- The illegal words of R84: 0x00000004 is ILLEGAL_OPCODE; 0x10000000 and 0x00000100 are RESERVED_FIELD. -/
theorem test_decode_illegal :
    decode 0x00000004 [] = .error .illegalOpcode ∧ decode 0x10000000 [] = .error .reservedField ∧
      decode 0x00000100 [] = .error .reservedField := ⟨rfl, rfl, rfl⟩

/-- R44: a command word is serialized most significant byte first. -/
theorem test_encodeBytes :
    encodeBytes (.absorb 0 [0x61, 0x62, 0x63]) = [0x00, 0x00, 0x03, 0x20, 0x61, 0x62, 0x63] := by decide

/-- R83: 300 bytes are a piece of 255 and one of 45. -/
theorem test_absorbAll_300 :
    (Pseudo.absorbAll 0 (List.replicate 300 7)).expand =
      [.absorb 0 (List.replicate 255 7), .absorb 0 (List.replicate 45 7)] := by decide +kernel

/-- R83: READ_ALL of 510 bytes is two READs of 255 and no third. -/
theorem test_readAll_510 : (Pseudo.readAll 1 510).expand = [.read 1 255, .read 1 255] := by decide

/-! ### The test configuration (95_test_vectors.md, section 2) -/

/-- `P_test`. -/
def pTest (s : Words) : Words := ⟨(s.w0 ^^^ s.w1 ^^^ s.w2 ^^^ s.w3 ^^^ s.w4).rotateLeft 1, s.w0, s.w1, s.w2, s.w3⟩

/-- The IVs of the test configuration. -/
def ivTest : IvName → Word
  | .mac => 0x4d41430000000001
  | .prf => 0x5052460000000002
  | .prng => 0x524e470000000003
  | .short m t => BitVec.ofNat 64 (0x5348000000000000 + 256 * m.val + t.val)

theorem ivTest_short_toNat (m t : Fin 17) : (ivTest (.short m t)).toNat = 0x5348000000000000 + 256 * m.val + t.val := by
  have hm := m.isLt
  have ht := t.isLt
  simp only [ivTest, BitVec.toNat_ofNat]
  omega

theorem ivTest_injective : Function.Injective ivTest := by
  intro a b h
  have h' := congrArg BitVec.toNat h
  rcases a with _ | _ | _ | ⟨m, t⟩ <;> rcases b with _ | _ | _ | ⟨m', t'⟩ <;>
    (try simp only [ivTest_short_toNat] at h') <;> first
    | rfl
    | exact absurd h (by decide)
    | (have hm := m.isLt
       have ht := t.isLt
       have hm' := m'.isLt
       have ht' := t'.isLt
       have h1 : m = m' := Fin.ext (by omega)
       have h2 : t = t' := Fin.ext (by omega)
       rw [h1, h2])
    | (simp [ivTest] at h'; omega)

/-- The test configuration, with either `SHORT_IDX`. -/
def testConfig (idx : ShortIdx) : Config where
  perm := pTest
  iv := ivTest
  iv_injective := ivTest_injective
  shortIdx := idx
  nCtx := 2
  nCtx_pos := by decide
  nCtx_le := by decide

/-- The test configuration of the vectors. -/
def tc : Config := testConfig .threeFour

/-- "Check: P_test([1, 2, 3, 4, 5]) = [2, 1, 2, 3, 4]". -/
theorem test_pTest : pTest ⟨1, 2, 3, 4, 5⟩ = ⟨2, 1, 2, 3, 4⟩ := by decide

/-! ### Helpers -/

/-- A context with these state words and buffered bytes; nothing squeezed. -/
def slotWith (s : Words) (buffered : List Byte) (phase : Phase) (persona : Persona) : Slot :=
  { Slot.empty with
    s := s, buf := Vector.ofFn fun i => buffered.getD i.val 0, bufLen := Fin.ofNat 32 buffered.length,
    phase := phase, persona := persona }

/-- The state after reset in the test configuration, but for slot 0. -/
def withSlot0 (sl : Slot) : State := (State.resetFor tc).setSlot 0 sl

/-- The last answer, as a pair. -/
def answerOf (s : State) : Option (BitVec 32 × List Byte) := (lastResponse s).map fun r => (r.word, r.payload)

/-- S after V-INIT-4. -/
def macK : Words := ⟨0x8a9220a2aea2a6a0, 0x4d41430000000001, 0x3031323334353637, 0x3839616263646566, 0⟩

/-- S after V-INIT-5. -/
def prfK : Words := ⟨0xb0b42aa2aea2a6a6, 0x5052460000000002, 0x3031323334353637, 0x3839616263646566, 0⟩

/-- S after V-INIT-7. -/
def prng55 : Words := ⟨0xa49c8e0000000006, 0x524e470000000003, 0x5555555555555555, 0x5555555555555555, 0⟩

/-- S after V-PRF-1. -/
def reader1 : Words :=
  ⟨0xd1dc7fe7f3e7ebe8, 0x30b42aa2aea2a6a6, 0x5052460000000002, 0x3031323334353637, 0x3839616263646566⟩

/-- The 32-byte message of S-1, "This is our great input sequence". -/
def kat : List Byte :=
  [0x54, 0x68, 0x69, 0x73, 0x20, 0x69, 0x73, 0x20, 0x6f, 0x75, 0x72, 0x20, 0x67, 0x72, 0x65, 0x61] ++
  [0x74, 0x20, 0x69, 0x6e, 0x70, 0x75, 0x74, 0x20, 0x73, 0x65, 0x71, 0x75, 0x65, 0x6e, 0x63, 0x65]

/-! ### Vectors: one step each -/

/-- V-NOP-1, and the NOP of Program 4 on the faulted engine. -/
theorem test_nop : answerOf (runNop tc (State.resetFor tc)) = some (0x00000001, []) := by decide
theorem test_nop_faulted :
    answerOf (runNop tc { withSlot0 (slotWith Words.zero [] .done .short) with fault := true, cause := .shortLength }) =
      some (0x00430503, []) := by decide

/-- V-QUERY-1, and the QUERY that ends Program 1. -/
theorem test_query :
    answerOf (runQuery tc 1 (State.resetFor tc)) =
      some (0x00000001, [0x00, 0x00, 0x00, 0x10, 0x02, 0x80, 0x01, 0x01, 0x00, 0x00, 0x00, 0x00]) := by decide
theorem test_query_faulted :
    answerOf (runQuery tc 0
        { withSlot0 (slotWith Words.zero [] .done .mac) with fault := true, cause := .illegalPhase, fcmd := 0x00000120 }) =
      some (0x00130603, [0x03, 0x01, 0x00, 0x10, 0x02, 0x80, 0x01, 0x01, 0x00, 0x00, 0x01, 0x20]) := by decide

/-- V-CLEAR-1. -/
theorem test_clear :
    (runClear tc 0 (withSlot0 (slotWith prfK [0x61] .absorb .prf))).slots = [Slot.empty, Slot.empty] ∧
      answerOf (runClear tc 0 (withSlot0 (slotWith prfK [0x61] .absorb .prf))) = some (0x00000001, []) := by decide

/-- V-CLONE-1: both slots hold the context. -/
theorem test_clone :
    (runClone tc 1 0 (withSlot0 (slotWith macK [0x61, 0x62] .absorb .mac))).slotAt 1 =
        slotWith macK [0x61, 0x62] .absorb .mac ∧
      answerOf (runClone tc 1 0 (withSlot0 (slotWith macK [0x61, 0x62] .absorb .mac))) = some (0x00110001, []) := by
  decide
/-- V-CLONE-3. -/
theorem test_clone_bad_slot : answerOf (runClone tc 1 2 (State.resetFor tc)) = some (0x00000302, []) := by decide

/-- V-INIT-1, V-INIT-2 and V-INIT-7. -/
theorem test_initMac :
    runInitMac tc 0 16 k0 (State.resetFor tc) =
      { withSlot0 (slotWith ⟨0x8a92961010101012, 0x4d41430000000001, 0x0001020304050607, 0x08090a0b0c0d0e0f, 0⟩ [] .absorb
          .mac) with responses := [⟨0x00110001, []⟩] } := by decide +kernel
theorem test_initPrf :
    runInitPrf tc 0 16 k0 (State.resetFor tc) =
      { withSlot0 (slotWith ⟨0xb0b49c1010101014, 0x5052460000000002, 0x0001020304050607, 0x08090a0b0c0d0e0f, 0⟩ [] .absorb
          .prf) with responses := [⟨0x00210001, []⟩] } := by decide +kernel
theorem test_seedPrng :
    runSeedPrng tc 0 16 (List.replicate 16 0x55) (State.resetFor tc) =
      { withSlot0 (slotWith prng55 [] .prngReady .prng) with responses := [⟨0x00340001, []⟩] } := by decide +kernel
/-- V-FAULT-7: LEN 15; FCMD is the word. -/
theorem test_initMac_bad_length :
    runInitMac tc 0 15 k0 (State.resetFor tc) =
      { State.resetFor tc with
        fault := true, cause := .badLength, fcmd := 0x00000F10, responses := [⟨0x00000402, []⟩] } := by decide +kernel

/-- V-ABS-2: 32 bytes, one compression. -/
theorem test_absorb_block :
    runAbsorb tc 0 kat (withSlot0 (slotWith macK [] .absorb .mac)) =
      { withSlot0 (slotWith ⟨0xe706677757e7e9e9, 0xdefa49d18ecbd580, 0x2234312067726560, 0x44115b5d44404217,
          0x4b5c1017060a0603⟩ [] .absorb .mac) with responses := [⟨0x00110001, []⟩] } := by decide +kernel
/-- V-ABS-6: an empty ABSORB makes a PRNG slot PRNG_FEED. -/
theorem test_absorb_empty_feed :
    runAbsorb tc 0 [] (withSlot0 (slotWith prng55 [] .prngReady .prng)) =
      { withSlot0 (slotWith prng55 [] .prngFeed .prng) with responses := [⟨0x00350001, []⟩] } := by decide +kernel

/-- V-MAC-2: "abc"; then the slot is zeroized and DONE. -/
theorem test_finalMac :
    runFinalMac tc 0 (withSlot0 (slotWith macK [0x61, 0x62, 0x63] .absorb .mac)) =
      { withSlot0 (slotWith Words.zero [] .done .mac) with
        responses := [⟨0x00130001, [0x5d, 0x72, 0xa6, 0xe7, 0xf3, 0xe7, 0xeb, 0xe3, 0xeb, 0xf0, 0x43, 0x22, 0xae, 0xa2,
          0xa6, 0xa0]⟩] } := by decide +kernel
/-- V-MAC-5: 'a' 32 times, so the padded block is the marker alone. -/
theorem test_finalMac_aligned :
    answerOf (runFinalMac tc 0 (runAbsorb tc 0 (List.replicate 32 0x61) (withSlot0 (slotWith macK [] .absorb .mac)))) =
      some (0x00130001, [0xa0, 0xda, 0xa2, 0x28, 0x14, 0x28, 0x3c, 0x21, 0x1f, 0xb6, 0x61, 0xe7, 0xf3, 0xe7, 0xeb,
        0xe1]) := by decide +kernel

/-- V-MAC-4: the tag, and the tag with bit 0 of byte 15 flipped. -/
theorem test_verifyMac_pass :
    answerOf (runVerifyMac tc 0 16 [0x5d, 0x72, 0xa6, 0xe7, 0xf3, 0xe7, 0xeb, 0xe3, 0xeb, 0xf0, 0x43, 0x22, 0xae, 0xa2,
      0xa6, 0xa0] (withSlot0 (slotWith macK [0x61, 0x62, 0x63] .absorb .mac))) = some (0x00130005, []) := by decide +kernel
theorem test_verifyMac_fail :
    answerOf (runVerifyMac tc 0 16 [0x5d, 0x72, 0xa6, 0xe7, 0xf3, 0xe7, 0xeb, 0xe3, 0xeb, 0xf0, 0x43, 0x22, 0xae, 0xa2,
      0xa6, 0xa1] (withSlot0 (slotWith macK [0x61, 0x62, 0x63] .absorb .mac))) = some (0x00130009, []) := by decide +kernel

/-- V-PRF-1. -/
theorem test_finalPrf :
    runFinalPrf tc 0 (withSlot0 (slotWith prfK [] .absorb .prf)) =
      { withSlot0 (slotWith reader1 [] .squeeze .prf) with responses := [⟨0x00220001, []⟩] } := by decide +kernel

/-- V-PRF-3: READ 20 from V-PRF-1: the output, S, SQPOS and OBUF. -/
theorem test_read_output :
    answerOf (runRead tc 0 20 (withSlot0 (slotWith reader1 [] .squeeze .prf))) =
      some (0x00220001, [0xd1, 0xdc, 0x7f, 0xe7, 0xf3, 0xe7, 0xeb, 0xe8, 0x30, 0xb4, 0x2a, 0xa2, 0xae, 0xa2, 0xa6, 0xa6,
        0x72, 0x64, 0x80, 0x28]) := by decide +kernel
theorem test_read_slot :
    (runRead tc 0 20 (withSlot0 (slotWith reader1 [] .squeeze .prf))).slotAt 0 =
      { slotWith ⟨0xe6df42bcfab08e81, 0x7264802814283c3b, 0xd1dc7fe7f3e7ebe8, 0x30b42aa2aea2a6a6, 0x5052460000000002⟩ []
          .squeeze .prf with
        obuf := #v[0x72, 0x64, 0x80, 0x28, 0x14, 0x28, 0x3c, 0x3b, 0xd1, 0xdc, 0x7f, 0xe7, 0xf3, 0xe7, 0xeb, 0xe8],
        sqPos := 4 } := by decide +kernel

/-- V-PRNG-3: FEED_END after "hello world"; V-PRNG-5: FEED_END from PRNG_READY. -/
theorem test_feedEnd :
    runFeedEnd tc 0 (withSlot0 (slotWith prng55 [0x68, 0x65, 0x6c, 0x6c, 0x6f, 0x20, 0x77, 0x6f, 0x72, 0x6c, 0x64] .prngFeed
        .prng)) =
      { withSlot0 (slotWith ⟨0xd9b783d8de40eed7, 0xccf9e26c6f207769, 0x2022238000000003, 0x5555555555555555,
          0x5555555555555555⟩ [] .prngReady .prng) with responses := [⟨0x00340001, []⟩] } := by decide +kernel
theorem test_feedEnd_empty :
    ((runFeedEnd tc 0 (withSlot0 (slotWith prng55 [] .prngReady .prng))).slotAt 0).s =
      ⟨0xeda5920000000008, 0x249c8e0000000006, 0x524e470000000003, 0x5555555555555555, 0x5555555555555555⟩ := by
  decide +kernel

/-- V-PRNG-1: GEN 1; V-PRNG-2: rejected in PRNG_FEED. -/
theorem test_generate :
    answerOf (runGenerate tc 0 (withSlot0 (slotWith prng55 [] .prngReady .prng))) =
      some (0x00340001, [0xa4, 0x9c, 0x8e, 0x00, 0x00, 0x00, 0x00, 0x06, 0x52, 0x4e, 0x47, 0x00, 0x00, 0x00, 0x00,
        0x03]) := by decide +kernel
theorem test_generate_feeding :
    answerOf (runGenerate tc 0 (withSlot0 (slotWith prng55 [0x68] .prngFeed .prng))) = some (0x00000602, []) := by
  decide +kernel

/-- V-SHORT-1 under (3, 4), with the slot it leaves; V-SHORT-4a under (0, 1). -/
theorem test_short :
    runShort tc 0 16 k [0x68, 0x65, 0x6c, 0x6c, 0x6f] (State.resetFor tc) =
      { withSlot0 (slotWith Words.zero [] .done .short) with
        responses := [⟨0x00430001, [0x08, 0x08, 0x53, 0x51, 0x57, 0x51, 0x53, 0x51, 0x50, 0x5c, 0x0d, 0x0e, 0x0c, 0x64,
          0x65, 0x66]⟩] } := by decide +kernel
theorem test_short_idx01 :
    answerOf (runShort (testConfig .zeroOne) 0 8 k [0x68, 0x65, 0x6c, 0x6c, 0x6f] (State.resetFor (testConfig .zeroOne))) =
      some (0x00430001, [0x56, 0x7b, 0x4c, 0x49, 0x44, 0x97, 0x9a, 0x85]) := by decide +kernel

/-- V-PAD: r = 3, 7 and 31, each byte 0x61. -/
theorem test_padding :
    wordAt (paddedBlock (List.replicate 3 0x61)) 0 = 0x6161618000000000 ∧
      wordAt (paddedBlock (List.replicate 7 0x61)) 0 = 0x6161616161616180 ∧
      wordAt (paddedBlock (List.replicate 31 0x61)) 3 = 0x6161616161616180 := by decide +kernel

/-- V-FAULT-1 to V-FAULT-12: the cause of each word, right after reset. -/
theorem test_faults :
    [0x00000004, 0x10000000, 0x00000100, 0x0F000001, 0x02000001, 0x00020003, 0x00000F10, 0x00111160, 0x00000040,
        0x1F000040, 0x00000130, 0x00010040].map (fun w => causeCode (checkWord tc w (State.resetFor tc))) =
      [1, 2, 2, 3, 3, 3, 4, 5, 6, 2, 2, 2] := by decide +kernel

/-- V-FAULT-2: the response, and what a word the decoder rejects leaves. -/
theorem test_fault_response :
    frameRejected 0x10000000 .reservedField (State.resetFor tc) =
      { State.resetFor tc with
        fault := true, cause := .reservedField, fcmd := 0x10000000, responses := [⟨0x00000202, []⟩] } := by decide

/-- V-FAULT-13: while faulted with CAUSE 6, a QUERY of a slot that does not exist is rejected and CAUSE stays 6. -/
theorem test_faulted_bad_query :
    runQuery tc 5 { State.resetFor tc with fault := true, cause := .illegalPhase, fcmd := 0x40 } =
      { State.resetFor tc with
        fault := true, cause := .illegalPhase, fcmd := 0x40, responses := [⟨0x00000602, []⟩] } := by decide

/-! ### Steps of the hardware -/

/-- The state after reset, with these items still to be delivered. -/
def sent (items : List PortItem) : State := { State.reset with input := items }

/-- NOP runs as the first command after reset: V-NOP-1's response. -/
theorem test_step_nop : step (State.reset.withFetchWord 32 0) = .next { State.reset with responses := [⟨1, []⟩] } := by
  rw [show step (State.reset.withFetchWord 32 0) = exec .nop State.reset from rfl]
  rfl

/-- R54: a command word alone, with 16 payload bytes due, is no step. -/
theorem test_step_waits : step (sent [.word 0x00001010]) = .fault .awaitingPayload := rfl

/-- With nothing delivered there is no step. -/
theorem test_step_idle : step State.reset = .fault .awaitingCommand := rfl

/-- I10: one byte too many, and a word in the middle of a payload, are refused. -/
theorem test_step_surplus : step (sent [.byte 0x61]) = .refused .surplusByte := rfl
theorem test_step_breach : step (sent [.word 0x00001010, .byte 0x61, .word 0]) = .refused .commandBeforePayload := rfl

/-- The host's opcode-table word of SHORT, with zero operands. -/
theorem test_tableWord : decodeTableWord 32 0x60 = some (.short 0 0 (List.replicate 16 0) []) := by decide

/-! ### Witnesses: for each statement with hypotheses, a state and operands that meet them -/

/-- The hardware's state after reset, but for slot 0. -/
def hw0 (sl : Slot) : State := State.reset.setSlot 0 sl

theorem running_hw0 (sl : Slot) : Running (hw0 sl) := ⟨by simp [hw0, State.setSlot, State.reset, State.resetFor], rfl, rfl⟩

theorem slotAt_hw0 (sl : Slot) : (hw0 sl).slotAt (0 : BitVec 4).toNat = sl := rfl

/-- The fault record of V-FAULT-9. -/
def faulted9 (s : State) : State := { s with fault := true, cause := .illegalPhase, fcmd := 0x40 }

/-- A command delivered whole, and nothing after it. -/
theorem delivers_sent (w : BitVec 32) (payload : List Byte) (h : payload.length = inLen w) :
    Delivers (sent (commandItems w payload)) w payload [] := ⟨h, by simp [sent], by simp⟩

/-- A MAC slot with 31 bytes buffered: one more byte makes a block. -/
def mac31 : Slot := slotWith macK (List.replicate 31 0x61) .absorb .mac

/-- A reader with one byte undelivered. -/
def reader15 : Slot := { slotWith reader1 [] .squeeze .prf with sqPos := 15 }

/-- A PRNG slot in PRNG_READY. -/
def ready55 : Slot := slotWith prng55 [] .prngReady .prng

theorem witness_DecodingInvertsEncoding :
    (Instr.absorb 15 (List.replicate 255 0xFF)).wf = true ∧
      (Instr.short 15 16 k (List.replicate 16 0xFF)).wf = true ∧ (Instr.clone 1 255).wf = true := by decide +kernel
theorem witness_EncodingInvertsDecoding :
    ([1, 2, 3] : List Byte).length = inLen 0x0F000320 ∧ decode 0x0F000320 [1, 2, 3] = .ok (.absorb 15 [1, 2, 3]) :=
  ⟨rfl, rfl⟩
theorem witness_UnassignedOpcodesFault :
    ∀ w ∈ ([0x04, 0x0F, 0x13, 0x1F, 0x21, 0x2F, 0x32, 0x37, 0x39, 0x3F, 0x41, 0x4F, 0x52, 0x5F, 0x61, 0xFF] :
      List (BitVec 32)), opOf w ∉ assignedOps ∧ (sent (commandItems w [])).fault = false ∧
        Delivers (sent (commandItems w [])) w [] [] := by
  intro w hw
  have h : opOf w ∉ assignedOps ∧ inLen w = 0 := by
    simp only [List.mem_cons, List.not_mem_nil, or_false] at hw
    rcases hw with rfl | rfl | rfl | rfl | rfl | rfl | rfl | rfl | rfl | rfl | rfl | rfl | rfl | rfl | rfl | rfl <;> decide
  exact ⟨h.1, rfl, delivers_sent w [] h.2.symm⟩
theorem witness_ReservedFieldsFault :
    ∀ w ∈ ([0x10000000, 0xF0000000, 0x00000100, 0x00010040, 0x00000103, 0x10000060] : List (BitVec 32)),
      opOf w ∈ assignedOps ∧ (∃ f ∈ mustBeZero w, f ≠ 0) ∧
        Delivers (sent (commandItems w (List.replicate (inLen w) 0))) w (List.replicate (inLen w) 0) [] := by
  intro w hw
  have h : opOf w ∈ assignedOps ∧ ∃ f ∈ mustBeZero w, f ≠ 0 := by
    simp only [List.mem_cons, List.not_mem_nil, or_false] at hw
    rcases hw with rfl | rfl | rfl | rfl | rfl | rfl <;> decide
  exact ⟨h.1, h.2, delivers_sent w _ (by simp)⟩
theorem witness_PayloadLengthIsTotal :
    Delivers (sent (commandItems 0x00000320 [1, 2, 3])) 0x00000320 [1, 2, 3] [] := delivers_sent _ _ rfl
theorem witness_OpcodeTableRows : (0x03001440 : BitVec 32) &&& Opcode.read.tableMask = Opcode.read.tableMatch := by decide
theorem witness_AssembledCommandsKeepTheFormat :
    (Instr.finalMac 0).assembles = true ∧ Running State.reset ∧
      ∃ t, exec (.finalMac 0) State.reset = .next t ∧ t.fault = true :=
  ⟨rfl, ⟨by simp [State.reset], rfl, rfl⟩, _, rfl, rfl⟩
theorem witness_StepRunsTheDecodedInstruction :
    Delivers (sent (commandItems 0x00000320 [1, 2, 3])) 0x00000320 [1, 2, 3] [] ∧
      decode 0x00000320 [1, 2, 3] = .ok (.absorb 0 [1, 2, 3]) := ⟨delivers_sent _ _ rfl, rfl⟩
theorem witness_EveryCommandIsAnsweredOnce :
    Delivers (sent (commandItems 0x00000004 [])) 0x00000004 [] [] := delivers_sent _ _ rfl
theorem witness_IncompletePayloadHolds :
    (List.replicate 15 (0 : Byte)).length < inLen 0x00001010 ∧
      (sent (commandItems 0x00001010 (List.replicate 15 0))).input =
        commandItems 0x00001010 (List.replicate 15 0) := ⟨by decide, rfl⟩
theorem witness_ResetAtAnyTime :
    (sent [.reset]).input = .reset :: [] ∧
    ([] : List Byte).length < inLen 0x00001010 ∧
    (sent [.word 0x00001010, .reset]).input = commandItems 0x00001010 [] ++ .reset :: [] ∧
    ([] : List Byte).length = inLen 0x00000030 ∧
    (sent [.word 0x00000030, .resetInBody]).input = commandItems 0x00000030 [] ++ .resetInBody :: [] := by
  exact ⟨rfl, by decide, rfl, rfl, rfl⟩
theorem witness_CheckOrder :
    (∀ w ∈ ([0x04, 0x10000000, 0x00FF0003, 0x00000F10, 0x00111160, 0x00000040] : List (BitVec 32)),
      Running (sent (commandItems w (List.replicate (inLen w) 0))) ∧
        Delivers (sent (commandItems w (List.replicate (inLen w) 0))) w (List.replicate (inLen w) 0) []) ∧
    checkOrder 0x04 State.reset = .illegalOpcode ∧ checkOrder 0x10000000 State.reset = .reservedField ∧
    checkOrder 0x00FF0003 State.reset = .badSlot ∧ checkOrder 0x00000F10 State.reset = .badLength ∧
    checkOrder 0x00111160 State.reset = .shortLength ∧ checkOrder 0x00000040 State.reset = .illegalPhase ∧
    checkOrder 0x00001060 State.reset = .none := by
  refine ⟨fun w _ => ⟨⟨by simp [sent, State.reset], rfl, rfl⟩, delivers_sent w _ (by simp)⟩, ?_⟩
  have h1 : ¬ Config.hw.nCtx ≤ 0 := by have := Config.hw.nCtx_pos; omega
  have h2 : Config.hw.nCtx ≤ 255 := le_trans Config.hw.nCtx_le (by decide)
  refine ⟨?_, ?_, ?_, ?_, ?_, ?_, ?_⟩ <;>
    simp [checkOrder, opOf, lenOf, auxOf, ctxOf, rsvdOf, assignedOps, mustBeZero, h1, h2] <;> rfl
theorem witness_PhaseAdmission :
    Running State.reset ∧ (Instr.finalMac 0).assembles = true ∧ slotOf (.finalMac 0) < Config.hw.nCtx ∧
      admittedIn (opOf (Instr.finalMac 0).word) (State.reset.slotAt 0) = false ∧
      admittedIn (opOf (Instr.finalMac 0).word) ((hw0 mac31).slotAt 0) = true :=
  ⟨⟨by simp [State.reset], rfl, rfl⟩, rfl, Config.hw.nCtx_pos, rfl, rfl⟩
theorem witness_FaultedEngineRejects :
    (faulted9 (sent (commandItems 0x30 []))).slots.length = Config.hw.nCtx ∧
      (faulted9 (sent (commandItems 0x30 []))).fault = true ∧
      Delivers (faulted9 (sent (commandItems 0x30 []))) 0x30 [] [] ∧ opOf 0x30 ≠ 0x00 ∧ opOf 0x30 ≠ 0x01 ∧
      Delivers (faulted9 (sent (commandItems 0x00 []))) 0x00 [] [] ∧ opOf 0x00 = 0x00 ∧
      checkOrder 0x00 (faulted9 (sent (commandItems 0x00 []))) = .none := by
  have h1 : ¬ Config.hw.nCtx ≤ 0 := by have := Config.hw.nCtx_pos; omega
  refine ⟨by simp [faulted9, sent, State.reset], rfl, ⟨rfl, rfl, by simp⟩, by decide, by decide, ⟨rfl, rfl, by simp⟩, rfl, ?_⟩
  simp [checkOrder, opOf, ctxOf, auxOf, lenOf, rsvdOf, assignedOps, mustBeZero, h1, admittedIn, admittedPairs]
theorem witness_WorkedEncodings : (List.replicate 255 (0x61 : Byte)).length = 255 := List.length_replicate
theorem witness_FaultIsStickyUntilReset :
    (faulted9 (sent [.word 0x30])).fault = true ∧ (∃ t, step (faulted9 (sent [.word 0x30])) = .next t ∧ t.fault = true) ∧
      (faulted9 (sent [.reset])).fault = true ∧ ResetArrives (faulted9 (sent [.reset])) [] ∧
      ∃ t, step (faulted9 (sent [.reset])) = .next t ∧ t.fault = false :=
  ⟨rfl, ⟨_, rfl, rfl⟩, rfl, .inl rfl, _, rfl, rfl⟩
theorem witness_FaultsArePrecise :
    (sent [.word 0x30]).slots.length = Config.hw.nCtx ∧ (sent [.word 0x30]).fault = false ∧
      ∃ t, step (sent [.word 0x30]) = .next t ∧ t.fault = true := ⟨by simp [sent, State.reset], rfl, _, rfl, rfl⟩
theorem witness_PhasePersonaPairs :
    (∀ sl ∈ (sent [.word 0x30]).slots, LegalPair sl.phase sl.persona) ∧ ∃ t, step (sent [.word 0x30]) = .next t := by
  refine ⟨fun sl h => ?_, _, rfl⟩
  obtain rfl := List.eq_of_mem_replicate h
  decide
theorem witness_EveryStepKeepsTheStateLegal :
    LegalState (sent [.word 0x30]) ∧ ∃ t, step (sent [.word 0x30]) = .next t := by
  refine ⟨⟨by simp [sent, State.reset], fun sl h => ?_, fun _ => ⟨rfl, rfl⟩, fun h => by cases h⟩, _, rfl⟩
  obtain rfl := List.eq_of_mem_replicate h
  decide
theorem witness_OtherSlotsUnchanged : ∃ t, exec (.finalMac 0) (hw0 mac31) = .next t ∧ t.fault = (hw0 mac31).fault :=
  ⟨_, rfl, rfl⟩
theorem witness_OtherSlotsUnread :
    (hw0 mac31).slots.length = (sent []).slots.length ∧
      (hw0 mac31).slotAt (slotOf (.clear 0)) = mac31 ∧ (∀ dst src, Instr.finalMac 0 ≠ .clone dst src) ∧
      ∃ t, exec (.finalMac 0) (hw0 mac31) = .next t :=
  ⟨by simp [hw0, sent, State.setSlot, State.reset], rfl, by simp, _, rfl⟩
theorem witness_ClonesAreEqualAndIndependent :
    (withSlot0 mac31).slots.length = tc.nCtx ∧ (withSlot0 mac31).fault = false ∧ (1 : BitVec 4).toNat < tc.nCtx ∧
      (0 : BitVec 4).toNat < tc.nCtx ∧ (1 : BitVec 4) ≠ 0 ∧
      (∀ j ∈ [Instr.absorb 0 [0x61]] ++ [.finalMac 0],
        j ≠ .nop ∧ ∀ d a, j = .clone d a → a.toNat ≠ (1 : BitVec 4).toNat ∧ a.toNat ≠ (0 : BitVec 4).toNat) ∧
      (runAllIn tc ([Instr.absorb 0 [0x61]].map (retarget 1)) (runIn tc (.clone 1 0) (withSlot0 mac31))).fault = false :=
  ⟨rfl, rfl, by decide, by decide, by decide, by simp, by decide +kernel⟩
/-- The ABSORB to slot 0 is what is taken out; what stays is slot 1's. -/
theorem witness_ClonesDoNotAffectEachOther :
    (withSlot0 mac31).slots.length = tc.nCtx ∧ (withSlot0 mac31).fault = false ∧ (1 : BitVec 4).toNat < tc.nCtx ∧
      (0 : BitVec 4).toNat < tc.nCtx ∧ (1 : BitVec 4) ≠ 0 ∧ 0 = (0 : BitVec 4).toNat ∧
      (∀ d a, Instr.clone d a ∈ [Instr.absorb 0 [0x61], .absorb 1 [0x62]] ++ [.finalMac 1] → a.toNat = 0 → d.toNat = 0) ∧
      (runAllIn tc [.absorb 0 [0x61], .absorb 1 [0x62]] (runIn tc (.clone 1 0) (withSlot0 mac31))).fault = false ∧
      [Instr.absorb 1 [0x62]] = [Instr.absorb 0 [0x61], .absorb 1 [0x62]].filter (fun j => slotOf j ≠ 0) ∧
      slotOf (.finalMac 1) ≠ 0 :=
  ⟨rfl, rfl, by decide, by decide, by decide, rfl, by simp, by decide +kernel, by decide, by decide⟩
theorem witness_SecretsShowOnlyThroughOutputs :
    SameStatus (hw0 mac31) (hw0 (slotWith prfK (List.replicate 31 0x62) .absorb .mac)) ∧
      (hw0 mac31).responses = (hw0 (slotWith prfK (List.replicate 31 0x62) .absorb .mac)).responses ∧
      (∃ t, exec (.query 0) (hw0 mac31) = .next t) ∧
      ∃ t, exec (.query 0) (hw0 (slotWith prfK (List.replicate 31 0x62) .absorb .mac)) = .next t := by
  refine ⟨⟨?_, rfl, rfl, rfl⟩, rfl, ⟨_, rfl⟩, ⟨_, rfl⟩⟩
  simp only [hw0, setSlot_slots, List.map_set]
  rfl
theorem witness_DeadWordsAreNeverOutput :
    SameLiveState State.reset (hw0 { Slot.empty with s := macK }) ∧ (∃ t, exec (.clear 0) State.reset = .next t) ∧
      ∃ t, exec (.clear 0) (hw0 { Slot.empty with s := macK }) = .next t := by
  refine ⟨⟨?_, rfl, rfl, rfl, rfl⟩, ⟨_, rfl⟩, ⟨_, rfl⟩⟩
  have h : forgetDeadWords { Slot.empty with s := macK } = forgetDeadWords (State.reset.slotAt 0) := by rfl
  simp only [hw0, setSlot_slots, List.map_set, h]
  rw [← List.map_set, set_slotAt]

/-- NopOnlyAnswers, QueryReportsStatus and ClearEmptiesTheSlot. -/
theorem witness_NopOnlyAnswers :
    (hw0 mac31).slots.length = Config.hw.nCtx ∧ (faulted9 (hw0 mac31)).slots.length = Config.hw.nCtx ∧
      (faulted9 (hw0 mac31)).fault = true := ⟨(running_hw0 _).1, (running_hw0 _).1, rfl⟩
theorem witness_QueryReportsStatus :
    (hw0 mac31).slots.length = Config.hw.nCtx ∧ (0 : BitVec 4).toNat < Config.hw.nCtx ∧
      (hw0 mac31).slotAt (0 : BitVec 4).toNat = mac31 ∧ (faulted9 (hw0 mac31)).slots.length = Config.hw.nCtx ∧
      (faulted9 (hw0 mac31)).fault = true ∧ (faulted9 (hw0 mac31)).slotAt (0 : BitVec 4).toNat = mac31 :=
  ⟨(running_hw0 _).1, Config.hw.nCtx_pos, rfl, (running_hw0 _).1, rfl, rfl⟩
theorem witness_ClearEmptiesTheSlot : Running (hw0 mac31) ∧ (0 : BitVec 4).toNat < Config.hw.nCtx :=
  ⟨running_hw0 _, Config.hw.nCtx_pos⟩
theorem witness_CloneCopiesTheSlot :
    Running (hw0 mac31) ∧ (0 : BitVec 4).toNat < Config.hw.nCtx ∧ (0 : BitVec 8).toNat < Config.hw.nCtx ∧
      Config.hw.nCtx ≤ (16 : BitVec 8).toNat := ⟨running_hw0 _, Config.hw.nCtx_pos, Config.hw.nCtx_pos, Config.hw.nCtx_le⟩
theorem witness_InitStartsAFreshContext :
    Running (hw0 mac31) ∧ (0 : BitVec 4).toNat < Config.hw.nCtx ∧ (16 : BitVec 8) = 16 ∧ (15 : BitVec 8) ≠ 16 ∧
      (17 : BitVec 8) ≠ 16 := ⟨running_hw0 _, Config.hw.nCtx_pos, rfl, by decide, by decide⟩
theorem witness_AbsorbAppendsTheBytes :
    Running (hw0 mac31) ∧ (0 : BitVec 4).toNat < Config.hw.nCtx ∧ (hw0 mac31).slotAt (0 : BitVec 4).toNat = mac31 ∧
      (∀ i : Fin 32, mac31.bufLen.val ≤ i.val → mac31.buf[i] = 0) ∧
      (mac31.phase, mac31.persona) ∈
        [(Phase.absorb, Persona.mac), (.absorb, .prf), (.prngReady, .prng), (.prngFeed, .prng)] :=
  ⟨running_hw0 _, Config.hw.nCtx_pos, rfl, by decide +kernel, by decide⟩
theorem witness_FinalMacReturnsTheTag :
    Running (hw0 mac31) ∧ (0 : BitVec 4).toNat < Config.hw.nCtx ∧ (hw0 mac31).slotAt (0 : BitVec 4).toNat = mac31 ∧
      mac31.phase = .absorb ∧ mac31.persona = .mac := ⟨running_hw0 _, Config.hw.nCtx_pos, rfl, rfl, rfl⟩
theorem witness_VerifyMacComparesTheTag :
    Running (hw0 mac31) ∧ (0 : BitVec 4).toNat < Config.hw.nCtx ∧ (hw0 mac31).slotAt (0 : BitVec 4).toNat = mac31 ∧
      mac31.phase = .absorb ∧ mac31.persona = .mac ∧ k.length = 16 ∧ (16 : BitVec 8) = 16 ∧ (15 : BitVec 8) ≠ 16 :=
  ⟨running_hw0 _, Config.hw.nCtx_pos, rfl, rfl, rfl, rfl, rfl, by decide⟩
theorem witness_FinalPrfStartsTheReader :
    Running (hw0 (slotWith prfK [] .absorb .prf)) ∧ (0 : BitVec 4).toNat < Config.hw.nCtx ∧
      (hw0 (slotWith prfK [] .absorb .prf)).slotAt (0 : BitVec 4).toNat = slotWith prfK [] .absorb .prf ∧
      (slotWith prfK [] .absorb .prf).phase = .absorb ∧ (slotWith prfK [] .absorb .prf).persona = .prf :=
  ⟨running_hw0 _, Config.hw.nCtx_pos, rfl, rfl, rfl⟩
theorem witness_ReadDeliversTheNextBytes :
    Running (hw0 reader15) ∧ (0 : BitVec 4).toNat < Config.hw.nCtx ∧
      (hw0 reader15).slotAt (0 : BitVec 4).toNat = reader15 ∧ reader15.phase = .squeeze ∧ reader15.persona = .prf ∧
      (1 : BitVec 8).toNat ≤ 16 - reader15.sqPos.val ∧ 16 - reader15.sqPos.val < (2 : BitVec 8).toNat :=
  ⟨running_hw0 _, Config.hw.nCtx_pos, rfl, rfl, rfl, by decide, by decide⟩
theorem witness_FeedEndPadsTheEntropy :
    Running (hw0 ready55) ∧ (0 : BitVec 4).toNat < Config.hw.nCtx ∧ (hw0 ready55).slotAt (0 : BitVec 4).toNat = ready55 ∧
      ready55.phase = .prngReady ∧ ready55.persona = .prng := ⟨running_hw0 _, Config.hw.nCtx_pos, rfl, rfl, rfl⟩
theorem witness_GenerateOutputsThenPermutes :
    Running (hw0 ready55) ∧ (0 : BitVec 4).toNat < Config.hw.nCtx ∧ (hw0 ready55).slotAt (0 : BitVec 4).toNat = ready55 ∧
      ready55.phase = .prngReady ∧ ready55.persona = .prng := ⟨running_hw0 _, Config.hw.nCtx_pos, rfl, rfl, rfl⟩
theorem witness_ShortIsAFunctionOfItsOperands :
    Running (hw0 mac31) ∧ (0 : BitVec 4).toNat < Config.hw.nCtx ∧ k.length = 16 ∧ (kat.take 16).length ≤ 16 ∧
      (16 : BitVec 8).toNat ≤ 16 ∧ 16 < (kat.take 17).length ∧ (kat.take 17).length ≤ 255 ∧ 16 < (17 : BitVec 8).toNat :=
  ⟨running_hw0 _, Config.hw.nCtx_pos, rfl, by decide, by decide, by decide, by decide, by decide⟩
theorem witness_ClearAndSelfCloneAreIdempotent : Running (hw0 mac31) ∧ (0 : BitVec 4).toNat < Config.hw.nCtx :=
  ⟨running_hw0 _, Config.hw.nCtx_pos⟩

/-- ResponseWordFields and OutputPayloadLength: a NOP that is answered OK and a READ that is not. -/
theorem witness_ResponseWordFields :
    (sent (commandItems 0x00 [])).slots.length = Config.hw.nCtx ∧ Delivers (sent (commandItems 0x00 [])) 0x00 [] [] ∧
      (∃ t r, step (sent (commandItems 0x00 [])) = .next t ∧ t.responses = (sent (commandItems 0x00 [])).responses ++ [r] ∧
        r.word.getLsbD 0 = true) ∧
      Delivers (sent (commandItems 0x40 [])) 0x40 [] [] ∧
      ∃ t r, step (sent (commandItems 0x40 [])) = .next t ∧ t.responses = (sent (commandItems 0x40 [])).responses ++ [r] ∧
        r.word.getLsbD 0 = false :=
  ⟨by simp [sent, State.reset], delivers_sent _ _ rfl, ⟨_, _, rfl, rfl, rfl⟩, delivers_sent _ _ rfl,
    ⟨_, _, rfl, rfl, rfl⟩⟩
theorem witness_OutputPayloadLength :
    Delivers (sent (commandItems 0x01 [])) 0x01 [] [] ∧
      ∃ t r, step (sent (commandItems 0x01 [])) = .next t ∧ t.responses = (sent (commandItems 0x01 [])).responses ++ [r] ∧
        r.payload.length = 12 := ⟨delivers_sent _ _ rfl, ⟨_, _, rfl, rfl, rfl⟩⟩
theorem witness_BigEndianConversions : k0.length = 16 ∧ (k0.take 8).length = 8 ∧ (7 : Nat) < 8 := by decide
/-- PaddingMarkerPosition: the ends of each clause's range. -/
theorem witness_PaddingMarkerPosition :
    (List.replicate 31 (0x61 : Byte)).length ≤ 31 ∧ (3 : Nat) < 4 ∧ 2 < (List.replicate 31 (0x61 : Byte)).length / 8 ∧
      3 = (List.replicate 31 (0x61 : Byte)).length / 8 ∧ 0 = ([] : List Byte).length / 8 ∧
      ([] : List Byte).length / 8 < 1 := by decide
theorem witness_AbsorptionOfAMessage : Slot.empty.bufLen = 0 ∧ Slot.empty.buf = Vector.replicate 32 0 := ⟨rfl, rfl⟩
theorem witness_PaddingIsInjective : ([] : List Byte) ≠ [0x80] ∧ List.replicate 32 (0 : Byte) ≠ List.replicate 31 0 := by
  decide
theorem witness_AbsorbIsSplitInvariant :
    Running (hw0 mac31) ∧ (0 : BitVec 4).toNat < Config.hw.nCtx ∧
      (((hw0 mac31).slotAt (0 : BitVec 4).toNat).phase, ((hw0 mac31).slotAt (0 : BitVec 4).toNat).persona) ∈
        [(Phase.absorb, Persona.mac), (.absorb, .prf), (.prngReady, .prng), (.prngFeed, .prng)] ∧
      (∀ p ∈ [[1], [2, 3]] ++ [[1, 2], [], [3]], (p : List Byte).length ≤ 255) ∧
      ([[1], [2, 3]] : List (List Byte)).flatten = [[1, 2], [], [3]].flatten :=
  ⟨running_hw0 _, Config.hw.nCtx_pos, by rw [slotAt_hw0]; decide, by decide, rfl⟩
theorem witness_ReadIsStreamingConsistent :
    Running (hw0 reader15) ∧ (0 : BitVec 4).toNat < Config.hw.nCtx ∧
      ((hw0 reader15).slotAt (0 : BitVec 4).toNat).phase = .squeeze ∧
      ((hw0 reader15).slotAt (0 : BitVec 4).toNat).persona = .prf ∧
      (([255, 20] : List (BitVec 8)).map BitVec.toNat).sum = (([20, 0, 255] : List (BitVec 8)).map BitVec.toNat).sum ∧
      ((hw0 (slotWith reader1 [] .squeeze .prf)).slotAt (0 : BitVec 4).toNat).sqPos = 16 :=
  ⟨running_hw0 _, Config.hw.nCtx_pos, rfl, rfl, rfl, rfl⟩
theorem witness_MacDependsOnKeyAndMessageOnly :
    Running (hw0 reader15) ∧ (0 : BitVec 4).toNat < Config.hw.nCtx ∧ k.length = 16 ∧
      ∀ p ∈ [kat.take 5, kat.drop 5], p.length ≤ 255 := ⟨running_hw0 _, Config.hw.nCtx_pos, rfl, by decide⟩
theorem witness_VerifyAcceptsExactlyTheMac :
    Running (hw0 reader15) ∧ (0 : BitVec 4).toNat < Config.hw.nCtx ∧ k.length = 16 ∧ k0.length = 16 ∧
      ∀ p ∈ [kat.take 5, kat.drop 5], p.length ≤ 255 := ⟨running_hw0 _, Config.hw.nCtx_pos, rfl, rfl, by decide⟩
theorem witness_PrfDependsOnKeyMessageAndPositionOnly :
    Running (hw0 mac31) ∧ (0 : BitVec 4).toNat < Config.hw.nCtx ∧ k.length = 16 ∧
      ∀ p ∈ [kat.take 5, kat.drop 5], p.length ≤ 255 := ⟨running_hw0 _, Config.hw.nCtx_pos, rfl, by decide⟩
theorem witness_GenerateGivesTheReaderStream :
    Running (hw0 ready55) ∧ (0 : BitVec 4).toNat < Config.hw.nCtx ∧
      ((hw0 ready55).slotAt (0 : BitVec 4).toNat).phase = .prngReady ∧
      ((hw0 ready55).slotAt (0 : BitVec 4).toNat).persona = .prng := ⟨running_hw0 _, Config.hw.nCtx_pos, rfl, rfl⟩
theorem witness_FeedAbsorbsOnePaddedMessage :
    Running (hw0 ready55) ∧ (0 : BitVec 4).toNat < Config.hw.nCtx ∧ (hw0 ready55).slotAt (0 : BitVec 4).toNat = ready55 ∧
      ready55.phase = .prngReady ∧ ready55.persona = .prng ∧ ready55.bufLen = 0 ∧
      ready55.buf = Vector.replicate 32 0 ∧ ∀ p ∈ [kat.take 5, kat.drop 5], p.length ≤ 255 :=
  ⟨running_hw0 _, Config.hw.nCtx_pos, rfl, rfl, rfl, rfl, by decide, by decide⟩

/-- `P_test` is a bijection, as 95_test_vectors.md says: no two states have one image. -/
theorem pTest_injective : Function.Injective pTest := by
  intro a b h
  obtain ⟨a0, a1, a2, a3, a4⟩ := a
  obtain ⟨b0, b1, b2, b3, b4⟩ := b
  simp only [pTest, Words.mk.injEq] at h
  obtain ⟨h0, rfl, rfl, rfl, rfl⟩ := h
  have hr : a0 ^^^ a1 ^^^ a2 ^^^ a3 ^^^ a4 = a0 ^^^ a1 ^^^ a2 ^^^ a3 ^^^ b4 := by
    have := congrArg (fun x : Word => x.rotateRight 1) h0
    have back : ∀ x : Word, (x.rotateLeft 1).rotateRight 1 = x := by
      intro x
      apply BitVec.eq_of_getLsbD_eq
      intro i hi
      rw [BitVec.getLsbD_rotateRight, BitVec.getLsbD_rotateLeft, BitVec.getLsbD_rotateLeft]
      by_cases h : i < 63
      · simp [h, show ¬ 1 + i < 1 by omega, show 1 + i < 64 by omega]
      · obtain rfl : i = 63 := by omega
        simp
    simpa only [back] using this
  have : a4 = b4 := by
    have := congrArg (fun x => (a0 ^^^ a1 ^^^ a2 ^^^ a3) ^^^ x) hr
    simpa [← BitVec.xor_assoc] using this
  rw [this]
theorem witness_PersonasAreSeparated :
    Function.Injective tc.perm ∧ (State.resetFor tc).slots.length = tc.nCtx ∧ (State.resetFor tc).fault = false ∧
      (0 : BitVec 4).toNat < tc.nCtx := ⟨pTest_injective, rfl, rfl, by decide⟩

end Sys2Proof.Tests
end

section
/-! PROOF of O55. What the three initializations leave in the state words of their slot, in any configuration
(spec/43_mac.md R141, 44_prf.md R155, 45_prng.md R170), and why an injective P keeps the personas apart: the IV is the
first word under P, and no two IVs are equal (00_scope.md R8). -/

namespace Sys2Proof.Machine

/-! ### One completed command in any configuration -/

/-- A command that passes CHECK on a running engine leaves in its slot what its body gives (60_exceptions.md R237). -/
theorem slotAt_runIn_self {cfg : Config} {i : Instr} {s : State} (hf : s.fault = false)
    (hc : check cfg i.header s = .none) (hs : slotOf i < s.slots.length) :
    (runIn cfg i s).slotAt (slotOf i) = (bodyOf cfg i s (s.slotAt (slotOf i))).slot := by
  rw [runIn_eq_frame, frame_of_check hf hc]
  exact slotAt_setSlot_self hs _

/-- A command with one slot operand, whose lengths fit and which every slot admits, passes CHECK on any slot that exists,
so its body decides what the slot holds. -/
theorem slotAt_runIn_of_always_admitted {cfg : Config} {i : Instr} {s : State} (hn : s.slots.length = cfg.nCtx)
    (hf : s.fault = false) (hs : slotOf i < cfg.nCtx) (hop : i.header.op ≠ .clone) (hl : lengthCause i.header = .none)
    (ha : ∀ p q, admits i.header.op p q = true) :
    (runIn cfg i s).slotAt (slotOf i) = (bodyOf cfg i s (s.slotAt (slotOf i))).slot := by
  have hex : slotsExist cfg i.header = true := by
    have hs' : i.header.ctx.toNat < cfg.nCtx := hs
    simp [slotsExist, hs', hop]
  have hc : check cfg i.header s = .none := (check_eq_none _ _ _).2 ⟨hex, hl, ha _ _⟩
  exact slotAt_runIn_self hf hc (hs.trans_eq hn.symm)

/-! ### The state words after an initialization -/

section Initializations

variable {cfg : Config} {s : State} {ctx : BitVec 4} (hn : s.slots.length = cfg.nCtx) (hf : s.fault = false)
  (hctx : ctx.toNat < cfg.nCtx) (key : List Byte)
include hn hf hctx

/-- INIT_MAC with LEN 16 (R141). -/
theorem initMac_stateWords :
    ((runIn cfg (.initMac ctx 16 key) s).slotAt ctx.toNat).s = startWords cfg.perm (cfg.iv .mac) key :=
  congrArg Slot.s (slotAt_runIn_of_always_admitted (i := .initMac ctx 16 key) hn hf hctx nofun rfl fun _ _ => rfl)

/-- INIT_PRF with LEN 16 (R155). -/
theorem initPrf_stateWords :
    ((runIn cfg (.initPrf ctx 16 key) s).slotAt ctx.toNat).s = startWords cfg.perm (cfg.iv .prf) key :=
  congrArg Slot.s (slotAt_runIn_of_always_admitted (i := .initPrf ctx 16 key) hn hf hctx nofun rfl fun _ _ => rfl)

/-- SEED_PRNG with LEN 16 (R170). -/
theorem seedPrng_stateWords :
    ((runIn cfg (.seedPrng ctx 16 key) s).slotAt ctx.toNat).s = startWords cfg.perm (cfg.iv .prng) key :=
  congrArg Slot.s (slotAt_runIn_of_always_admitted (i := .seedPrng ctx 16 key) hn hf hctx nofun rfl fun _ _ => rfl)

end Initializations

/-! ### Separation -/

/-- Under an injective P the start words determine the IV, whatever the keys. -/
theorem iv_eq_of_startWords_eq {perm : Words → Words} (hP : Function.Injective perm) {iv iv' : Word}
    {key key' : List Byte} (h : startWords perm iv key = startWords perm iv' key') : iv = iv' :=
  congrArg Words.w0 (hP h)

/-- Contexts started under two IV names have different state words (R8). -/
theorem startWords_ne {cfg : Config} (hP : Function.Injective cfg.perm) {n n' : IvName} (hne : n ≠ n')
    (key key' : List Byte) : startWords cfg.perm (cfg.iv n) key ≠ startWords cfg.perm (cfg.iv n') key' :=
  fun h => hne (cfg.iv_injective (iv_eq_of_startWords_eq hP h))

/-- Settles O55: each initialization leaves the start words of its own IV, and these differ for different IVs. -/
theorem personasAreSeparated : Obligations.PersonasAreSeparated := by
  intro cfg hP s tm tf tp ctx km kf kp hn hf hctx hm hpf hpg
  subst hm hpf hpg
  rw [initMac_stateWords hn hf hctx, initPrf_stateWords hn hf hctx, seedPrng_stateWords hn hf hctx]
  exact ⟨startWords_ne hP (by decide) km kf, startWords_ne hP (by decide) km kp, startWords_ne hP (by decide) kf kp⟩

end Sys2Proof.Machine
end

section
/-! PROOF, the rules that the statements about the state share (spec/10_state.md, spec/60_exceptions.md R237): what the
next states of Safety.lean hold, `exec` as `runIn` at the hardware's configuration, and what a step does to a predicate
on slots. -/

namespace Sys2Proof.Machine

/-! ### The next states of Safety.lean: answers and slots -/

section NextStates

variable (s : State) (c : Nat) (sl : Slot) (w : BitVec 32) (k : Cause) (out : List Byte)

@[simp] theorem faulted_responses :
    (faulted s w k).responses = s.responses ++ [⟨0#16 ++ causeCode k ++ 0x02#8, []⟩] := rfl
@[simp] theorem rejected_responses :
    (rejected s).responses = s.responses ++ [⟨0#16 ++ causeCode s.cause ++ 0x02#8, []⟩] := rfl

/-- What a slot reads as after it is written: its new content if it exists, EMPTY_SLOT if not (log 12). -/
theorem slotAt_answered : (answered s c sl w out).slotAt c = if c < s.slots.length then sl else Slot.empty := by
  split
  case isTrue h => exact slotAt_setSlot_self h sl
  case isFalse h => exact List.getD_eq_default _ _ (by simpa using h)

end NextStates

/-- A predicate on slots that EMPTY_SLOT meets holds of whatever a slot number reads as (log 12). -/
theorem forall_slotAt {s : State} {P : Slot → Prop} (he : P Slot.empty) (h : ∀ sl ∈ s.slots, P sl) (c : Nat) :
    P (s.slotAt c) := by
  by_cases hc : c < s.slots.length
  · rw [slotAt_eq_getElem hc]; exact h _ (List.getElem_mem hc)
  · rw [State.slotAt, List.getD_eq_default _ _ (Nat.le_of_not_lt hc)]; exact he

/-! ### One command -/

/-- `exec` is the meaning at the hardware's configuration. -/
theorem exec_eq_runIn (i : Instr) (s : State) : exec i s = .next (runIn Config.hw i s) := by
  rw [exec_eq_frame, runIn_eq_frame]

/-- What `exec` answers is `runIn`'s state. -/
theorem eq_runIn_of_exec {i : Instr} {s t : State} (h : exec i s = .next t) : t = runIn Config.hw i s := by
  rw [exec_eq_runIn] at h
  cases h; rfl

/-- A slot whose command passes CHECK admits it (60_exceptions.md R239). -/
theorem admits_of_check {cfg : Config} {h : Header} {s : State} (hc : check cfg h s = .none) :
    admits h.op (s.slotAt h.ctx.toNat).phase (s.slotAt h.ctx.toNat).persona = true := by
  obtain ⟨-, -, ha⟩ := (check_eq_none cfg h s).1 hc
  exact ha

/-! ### What every step keeps of the slots -/

/-- A predicate that every slot meets, and that a command's body gives its slot, is met by every slot afterwards. -/
theorem forall_slots_runIn {P : Slot → Prop} {cfg : Config} {i : Instr} {s : State} (h : ∀ sl ∈ s.slots, P sl)
    (hb : check cfg i.header s = .none → P (bodyOf cfg i s (s.slotAt (slotOf i))).slot) :
    ∀ sl ∈ (runIn cfg i s).slots, P sl := by
  rcases runIn_cases cfg i s with ⟨hc, -, e⟩ | ⟨-, -, e⟩ | ⟨-, -, e⟩ <;> rw [e]
  · intro sl hsl
    rcases List.mem_or_eq_of_mem_set hsl with hs | rfl
    · exact h sl hs
    · exact hb hc
  · exact h
  · exact h

/-- The induction step of every invariant of the slots: EMPTY_SLOT meets the predicate, and so does what a body makes of
an admitted slot, given that all slots (a CLONE's source among them) do. -/
theorem forall_slots_step {P : Slot → Prop} (he : P Slot.empty)
    (hb : ∀ (i : Instr) (s : State), (∀ c, P (s.slotAt c)) →
      admits i.header.op (s.slotAt (slotOf i)).phase (s.slotAt (slotOf i)).persona = true →
      P (bodyOf Config.hw i s (s.slotAt (slotOf i))).slot)
    {s t : State} (h : ∀ sl ∈ s.slots, P sl) (hst : step s = .next t) : ∀ sl ∈ t.slots, P sl := by
  rcases step_next_cases hst with ⟨rest, -, rfl⟩ | ⟨w, payload, rest, -, -, ⟨i, -, hi⟩ | ⟨e, -, rfl⟩⟩
  · intro sl hsl
    rw [List.eq_of_mem_replicate hsl]; exact he
  · rw [eq_runIn_of_exec hi]
    exact forall_slots_runIn (s := { s with input := rest }) h fun hc =>
      hb i _ (forall_slotAt he h) (admits_of_check hc)
  · rcases frameRejected_cases w e { s with input := rest } with ⟨-, e'⟩ | ⟨-, e'⟩ <;> rw [e'] <;> exact h

end Sys2Proof.Machine
end

section
/-! PROOF of O14, O20, O21 and O22. The legal (PHASE, PERSONA) pairs and the legal slots are kept by every body on a slot
that admits it (spec/10_state.md R26, R28 to R31, R35; spec/43_mac.md R149), so by every step; the fault record by the
three outcomes of the frame (spec/60_exceptions.md R237). -/

namespace Sys2Proof.Machine

/-! ### Where a command is admitted (60_exceptions.md R239) -/

section Admission

variable {p : Phase} {q : Persona}

theorem admits_absorb :
    admits .absorb p q = true ↔
      (p = .absorb ∧ (q = .mac ∨ q = .prf)) ∨ ((p = .prngReady ∨ p = .prngFeed) ∧ q = .prng) := by simp [admits]
theorem admits_finalMac : admits .finalMac p q = true ↔ p = .absorb ∧ q = .mac := by simp [admits]
theorem admits_finalPrf : admits .finalPrf p q = true ↔ p = .absorb ∧ q = .prf := by simp [admits]
theorem admits_read : admits .read p q = true ↔ p = .squeeze ∧ q = .prf := by simp [admits]
theorem admits_feedEnd : admits .feedEnd p q = true ↔ (p = .prngReady ∨ p = .prngFeed) ∧ q = .prng := by simp [admits]
theorem admits_generate : admits .generate p q = true ↔ p = .prngReady ∧ q = .prng := by simp [admits]

/-- Where ABSORB is admitted, the pair it leaves is legal and takes input, and no reader holds the slot (42_absorb.md
R121). -/
theorem feedPhase_of_admits (ha : admits .absorb p q = true) :
    LegalPair (feedPhase p) q ∧ (feedPhase p = .absorb ∨ feedPhase p = .prngFeed) ∧ p ≠ .squeeze := by
  rcases admits_absorb.1 ha with ⟨rfl, rfl | rfl⟩ | ⟨rfl | rfl, rfl⟩ <;> decide

end Admission

/-! ### Legal pairs (R26) -/

/-- Every body leaves a legal pair in a slot that admits the command. -/
theorem legalPair_bodyOf (cfg : Config) (i : Instr) (s : State)
    (h : ∀ c, LegalPair (s.slotAt c).phase (s.slotAt c).persona)
    (ha : admits i.header.op (s.slotAt (slotOf i)).phase (s.slotAt (slotOf i)).persona = true) :
    LegalPair (bodyOf cfg i s (s.slotAt (slotOf i))).slot.phase
      (bodyOf cfg i s (s.slotAt (slotOf i))).slot.persona := by
  have hi := h (slotOf i)
  generalize s.slotAt (slotOf i) = sl at ha hi ⊢
  cases i with
  | nop => exact hi
  | query _ => exact hi
  | clear _ => exact .head _
  | clone _ src => exact h src.toNat
  | initMac _ _ _ => simp [bodyOf, initMacBody, startContext_eq]
  | initPrf _ _ _ => simp [bodyOf, initPrfBody, startContext_eq]
  | seedPrng _ _ _ => simp [bodyOf, seedPrngBody, startContext_eq]
  | absorb _ bytes =>
    obtain ⟨-, -, -, hq⟩ := appendAll_frame cfg sl bytes
    simpa only [bodyOf, absorbBody, hq] using (feedPhase_of_admits ha).1
  | finalMac _ =>
    obtain ⟨-, hq⟩ := admits_finalMac.1 ha
    simp [bodyOf, finalMacBody, consumeMac_eq, hq]
  | verifyMac _ _ _ =>
    obtain ⟨-, hq⟩ := admits_finalMac.1 ha
    simp [bodyOf, verifyMacBody, consumeMac_eq, hq]
  | finalPrf _ =>
    obtain ⟨-, hq⟩ := admits_finalPrf.1 ha
    simp [bodyOf, finalPrfBody, hq]
  | read _ n =>
    obtain ⟨-, -, hp, hq⟩ := readBytes_frame cfg n.toNat sl
    simpa only [bodyOf, readBody, hp, hq] using hi
  | feedEnd _ =>
    obtain ⟨-, hq⟩ := admits_feedEnd.1 ha
    simp [bodyOf, feedEndBody, hq]
  | generate _ => exact hi
  | short _ _ _ _ => simp [bodyOf, shortBody]

theorem legalPair_empty : LegalPair Slot.empty.phase Slot.empty.persona := .head _

/-- Settles O20: every slot is EMPTY_SLOT at reset, and the slot a body leaves holds a legal pair. -/
theorem phasePersonaPairs : Obligations.PhasePersonaPairs := by
  refine ⟨fun sl hsl => ?_, fun s t h hst => ?_⟩
  · rw [List.eq_of_mem_replicate hsl]; exact legalPair_empty
  · exact forall_slots_step (P := fun sl => LegalPair sl.phase sl.persona) legalPair_empty
      (legalPair_bodyOf Config.hw) h hst

/-! ### Legal slots (R28 to R31, R35, R149) -/

theorem legalSlot_empty : LegalSlot Slot.empty := by decide

/-- A slot with nothing buffered on either side, in no EMPTY phase, is legal if its pair is and a DONE one is zeroized. -/
theorem legalSlot_of_clean {sl : Slot} (hl : LegalPair sl.phase sl.persona) (hb : sl.buf = Vector.replicate 32 0)
    (hn : sl.bufLen = 0) (ho : sl.obuf = Vector.replicate 16 0) (hq : sl.sqPos = 16) (hp : sl.phase ≠ .empty)
    (hd : sl.phase = .done → sl.s = Words.zero) : LegalSlot sl :=
  ⟨hl, fun k _ => by simp [hb], fun h => by simp [hn] at h, fun _ => ⟨hq, ho⟩, fun h => absurd h hp, hd⟩

/-- A slot that holds a byte string has zeros in BUF from BUFLEN on. -/
theorem Holds.buf_eq_zero {cfg : Config} {s0 : Words} {msg : List Byte} {sl : Slot} (h : Holds cfg s0 msg sl)
    (k : Fin 32) (hk : sl.bufLen.val ≤ k.val) : sl.buf[k] = 0 := by
  have hr := remainder_length msg
  have hc := h.count
  calc sl.buf[k] = sl.buf.toList[k.val]'(by simp) := by simp
    _ = (remainder msg ++ List.replicate (32 - msg.length % 32) 0)[k.val]'(by simp; omega) := by
      simp only [h.buffer]
    _ = 0 := by rw [List.getElem_append_right (by omega), List.getElem_replicate]

/-- APPEND keeps the bytes of BUF from BUFLEN on zero (R28, R89). -/
theorem appendAll_buf_eq_zero (cfg : Config) {sl : Slot} (hz : ∀ k : Fin 32, sl.bufLen.val ≤ k.val → sl.buf[k] = 0)
    (bytes : List Byte) (k : Fin 32) (hk : (appendAll cfg sl bytes).bufLen.val ≤ k.val) :
    (appendAll cfg sl bytes).buf[k] = 0 :=
  ((holds_buffered cfg sl hz).appendAll bytes).buf_eq_zero k hk

/-- The consumed context of a MAC slot is legal: its reader fields were clean already (43_mac.md R149). -/
theorem legalSlot_consumeMac (cfg : Config) {sl : Slot} (h : LegalSlot sl)
    (ha : admits .finalMac sl.phase sl.persona = true) : LegalSlot (consumeMac cfg sl) := by
  obtain ⟨hp, hq⟩ := admits_finalMac.1 ha
  obtain ⟨-, -, -, hsq, -, -⟩ := h
  obtain ⟨hpos, ho⟩ := hsq (by simp [hp])
  have hl : LegalPair (consumeMac cfg sl).phase (consumeMac cfg sl).persona := by simp [consumeMac_eq, hq]
  exact legalSlot_of_clean hl rfl rfl ho hpos nofun fun _ => rfl

/-- Every body leaves a legal slot where the command is admitted. -/
theorem legalSlot_bodyOf (cfg : Config) (i : Instr) (s : State) (h : ∀ c, LegalSlot (s.slotAt c))
    (ha : admits i.header.op (s.slotAt (slotOf i)).phase (s.slotAt (slotOf i)).persona = true) :
    LegalSlot (bodyOf cfg i s (s.slotAt (slotOf i))).slot := by
  have hl := legalPair_bodyOf cfg i s (fun c => (h c).1) ha
  have hi := h (slotOf i)
  generalize s.slotAt (slotOf i) = sl at ha hl hi ⊢
  obtain ⟨-, hz, hin, hsq, -, -⟩ := id hi
  cases i with
  | nop => exact hi
  | query _ => exact hi
  | clear _ => exact legalSlot_empty
  | clone _ src => exact h src.toNat
  | initMac _ _ _ => exact legalSlot_of_clean hl rfl rfl rfl rfl nofun nofun
  | initPrf _ _ _ => exact legalSlot_of_clean hl rfl rfl rfl rfl nofun nofun
  | seedPrng _ _ _ => exact legalSlot_of_clean hl rfl rfl rfl rfl nofun nofun
  | absorb _ bytes =>
    obtain ⟨ho, hq, -, -⟩ := appendAll_frame cfg sl bytes
    obtain ⟨-, hp, hsl⟩ := feedPhase_of_admits ha
    refine ⟨hl, appendAll_buf_eq_zero cfg hz bytes, fun _ => hp, fun _ => ?_, fun e => ?_, fun e => ?_⟩
    · exact ⟨hq.trans (hsq hsl).1, ho.trans (hsq hsl).2⟩
    · rcases hp with hp | hp <;> cases hp.symm.trans e
    · rcases hp with hp | hp <;> cases hp.symm.trans e
  | finalMac _ => exact legalSlot_consumeMac cfg hi ha
  | verifyMac _ _ _ => exact legalSlot_consumeMac cfg hi ha
  | finalPrf _ => exact legalSlot_of_clean hl rfl rfl rfl rfl nofun nofun
  | read _ n =>
    obtain ⟨hp, -⟩ := admits_read.1 ha
    obtain ⟨hb, hn, hp', -⟩ := readBytes_frame cfg n.toNat sl
    rw [hp] at hp'
    refine ⟨hl, ?_, fun h0 => ?_, fun hne => absurd hp' hne, fun e => ?_, fun e => ?_⟩
    · simpa only [bodyOf, readBody, hb, hn] using hz
    · have := hin (hn ▸ h0)
      simp [hp] at this
    · cases hp'.symm.trans e
    · cases hp'.symm.trans e
  | feedEnd _ =>
    obtain ⟨hp, -⟩ := admits_feedEnd.1 ha
    obtain ⟨hq, ho⟩ := hsq (by rcases hp with hp | hp <;> simp [hp])
    exact legalSlot_of_clean hl rfl rfl ho hq nofun nofun
  | generate _ =>
    obtain ⟨hp, -⟩ := admits_generate.1 ha
    refine ⟨hl, hz, hin, hsq, fun e => ?_, fun e => ?_⟩
    · cases hp.symm.trans e
    · cases hp.symm.trans e
  | short _ _ _ _ => exact legalSlot_of_clean hl rfl rfl rfl rfl nofun fun _ => rfl

/-! ### Legal states (R17, R22, R23) -/

/-- What `LegalState` asks of the fault record: empty while FAULT = 0, with a cause while FAULT = 1. -/
def LegalFaultRecord (s : State) : Prop :=
  (s.fault = false → s.cause = .none ∧ s.fcmd = 0) ∧ (s.fault = true → s.cause ≠ .none)

/-- A fault that is raised with a cause leaves a legal record. -/
theorem legalFaultRecord_faulted (s : State) (w : BitVec 32) {k : Cause} (hk : k ≠ .none) :
    LegalFaultRecord (faulted s w k) := ⟨nofun, fun _ => hk⟩

/-- No command spoils the fault record or the number of slots: it leaves the record alone or raises a fault with CHECK's
cause. -/
theorem legalFaultRecord_runIn (cfg : Config) (i : Instr) {s : State} (h : LegalFaultRecord s) :
    LegalFaultRecord (runIn cfg i s) := by
  rcases runIn_cases cfg i s with ⟨-, -, e⟩ | ⟨-, -, e⟩ | ⟨-, hc, e⟩ <;> rw [e]
  · exact h
  · exact h
  · exact legalFaultRecord_faulted s _ hc

/-- Every step keeps N_CTX slots and a legal fault record. -/
theorem legalFaultRecord_step {s t : State} (hn : s.slots.length = Config.hw.nCtx) (h : LegalFaultRecord s)
    (hst : step s = .next t) : t.slots.length = Config.hw.nCtx ∧ LegalFaultRecord t := by
  rcases step_next_cases hst with ⟨rest, -, rfl⟩ | ⟨w, payload, rest, -, -, ⟨i, -, hi⟩ | ⟨e, he, rfl⟩⟩
  · exact ⟨List.length_replicate, fun _ => ⟨rfl, rfl⟩, nofun⟩
  · rw [eq_runIn_of_exec hi, slots_length_runIn]
    exact ⟨hn, legalFaultRecord_runIn _ i (s := { s with input := rest }) h⟩
  · have hk : decodeCause e ≠ .none := by
      rcases decode_cases w payload with ⟨hd, -, hok⟩ | ⟨e', -, hne, herr⟩
      · rw [hok] at he; cases he
      · rw [herr] at he; cases he; exact decodeCause_ne_none hne
    rcases frameRejected_cases w e { s with input := rest } with ⟨-, e'⟩ | ⟨-, e'⟩ <;> rw [e']
    · exact ⟨hn, h⟩
    · exact ⟨hn, legalFaultRecord_faulted _ w hk⟩

/-- Settles O21: the slots by `legalSlot_bodyOf`, the rest by the outcomes of the frame. -/
theorem everyStepKeepsTheStateLegal : Obligations.EveryStepKeepsTheStateLegal := by
  rintro s t ⟨hn, hsl, hrec⟩ hst
  obtain ⟨hn', hrec'⟩ := legalFaultRecord_step hn hrec hst
  exact ⟨hn', forall_slots_step legalSlot_empty (legalSlot_bodyOf Config.hw) hsl hst, hrec'⟩

/-- Settles O22: every slot is EMPTY_SLOT and the fault record is empty. -/
theorem resetIsLegal : Obligations.ResetIsLegal := by
  refine ⟨List.length_replicate, fun sl hsl => ?_, fun _ => ⟨rfl, rfl⟩, nofun⟩
  rw [List.eq_of_mem_replicate hsl]
  exact legalSlot_empty

/-! ### The reset values (R34) -/

/-- Settles O14: N_CTX is a configuration's (R17), and every slot is EMPTY_SLOT. -/
theorem resetValues : Obligations.ResetValues := by
  refine ⟨⟨List.length_replicate, Config.hw.nCtx_pos, Config.hw.nCtx_le⟩, fun sl hsl => ?_, rfl, rfl, rfl⟩
  rw [List.eq_of_mem_replicate hsl]
  exact ⟨rfl, rfl, rfl, rfl, rfl, rfl, rfl⟩

end Sys2Proof.Machine
end

section
/-! PROOF of O11 and O23: what one command leaves alone, whatever the frame does with it (spec/10_state.md R16, R17;
spec/20_memory.md R46, R53; spec/60_exceptions.md R237). -/

namespace Sys2Proof.Machine

/-- Every command gets exactly one answer and takes nothing more off the port (R53). -/
theorem runIn_answers (cfg : Config) (i : Instr) (s : State) :
    (∃ r, (runIn cfg i s).responses = s.responses ++ [r]) ∧ (runIn cfg i s).input = s.input := by
  rcases runIn_cases cfg i s with ⟨-, -, e⟩ | ⟨-, -, e⟩ | ⟨-, -, e⟩ <;> rw [e]
  · exact ⟨⟨_, rfl⟩, rfl⟩
  · exact ⟨⟨_, rejected_responses s⟩, rfl⟩
  · exact ⟨⟨_, faulted_responses s _ _⟩, rfl⟩

/-- So does a word that is no instruction. -/
theorem frameRejected_answers (w : BitVec 32) (e : DecodeError) (s : State) :
    (∃ r, (frameRejected w e s).responses = s.responses ++ [r]) ∧ (frameRejected w e s).input = s.input := by
  rcases frameRejected_cases w e s with ⟨-, e'⟩ | ⟨-, e'⟩ <;> rw [e']
  · exact ⟨⟨_, rejected_responses s⟩, rfl⟩
  · exact ⟨⟨_, faulted_responses s _ _⟩, rfl⟩

/-- A command that raises no fault leaves the fault record alone (R237). -/
theorem faultRecord_runIn {cfg : Config} {i : Instr} {s : State} (h : (runIn cfg i s).fault = s.fault) :
    (runIn cfg i s).cause = s.cause ∧ (runIn cfg i s).fcmd = s.fcmd := by
  rcases runIn_cases cfg i s with ⟨-, -, e⟩ | ⟨-, -, e⟩ | ⟨hf, -, e⟩ <;> rw [e] at h ⊢
  · exact ⟨rfl, rfl⟩
  · exact ⟨rfl, rfl⟩
  · rw [faulted_fault, hf] at h; cases h

/-- Settles O11: a delivered word is an instruction or is rejected by the decoder, and either is answered once. -/
theorem everyCommandIsAnsweredOnce : Obligations.EveryCommandIsAnsweredOnce := by
  refine ⟨fun i s => ?_, fun s w payload rest hd => ?_⟩
  · obtain ⟨⟨r, hr⟩, hin⟩ := runIn_answers Config.hw i s
    exact ⟨_, r, exec_eq_runIn i s, hr, hin⟩
  · rw [step_of_delivers hd]
    unfold runCommand
    rcases decode_cases w payload with ⟨h, -, hok⟩ | ⟨e, -, -, herr⟩
    · obtain ⟨⟨r, hr⟩, hin⟩ := runIn_answers Config.hw (h.instr payload) { s with input := rest }
      rw [hok]
      exact ⟨_, r, exec_eq_runIn _ _, hr, hin⟩
    · obtain ⟨⟨r, hr⟩, hin⟩ := frameRejected_answers w e { s with input := rest }
      rw [herr]
      exact ⟨_, r, rfl, hr, hin⟩

/-- Settles O23, by what each outcome of the frame leaves alone. -/
theorem otherSlotsUnchanged : Obligations.OtherSlotsUnchanged := by
  intro i s t h
  rw [eq_runIn_of_exec h]
  obtain ⟨-, hin⟩ := runIn_answers Config.hw i s
  exact ⟨slots_length_runIn _ i s, fun c hc => slotAt_runIn_of_ne hc s, hin, faultRecord_runIn⟩

end Sys2Proof.Machine
end

section
/-! PROOF, two frames side by side. Two commands that CHECK treats alike complete, are rejected or fault together
(spec/60_exceptions.md R237, R238). -/

namespace Sys2Proof.Machine

/-- CHECK sees of a state only the phase and persona of the addressed slot (R238). -/
theorem check_congr {cfg : Config} {h₁ h₂ : Header} {s₁ s₂ : State} (hop : h₁.op = h₂.op)
    (hex : slotsExist cfg h₁ = slotsExist cfg h₂) (hl : lengthCause h₁ = lengthCause h₂)
    (hp : (s₁.slotAt h₁.ctx.toNat).phase = (s₂.slotAt h₂.ctx.toNat).phase)
    (hq : (s₁.slotAt h₁.ctx.toNat).persona = (s₂.slotAt h₂.ctx.toNat).persona) :
    check cfg h₁ s₁ = check cfg h₂ s₂ := by
  simp only [check, hop, hex, hl, hp, hq]

/-- Two commands with one opcode and one outcome of CHECK, on states with one FAULT, do the same of the frame's three
things. -/
theorem runIn_lockstep {cfg : Config} {i₁ i₂ : Instr} {s₁ s₂ : State} (hop : i₁.header.op = i₂.header.op)
    (hc : check cfg i₁.header s₁ = check cfg i₂.header s₂) (hf : s₁.fault = s₂.fault) :
    (check cfg i₁.header s₁ = .none ∧ runIn cfg i₁ s₁ = complete i₁.header (bodyOf cfg i₁ s₁) s₁ ∧
      runIn cfg i₂ s₂ = complete i₂.header (bodyOf cfg i₂ s₂) s₂) ∨
    (runIn cfg i₁ s₁ = rejected s₁ ∧ runIn cfg i₂ s₂ = rejected s₂) ∨
    (runIn cfg i₁ s₁ = faulted s₁ i₁.word (check cfg i₁.header s₁) ∧
      runIn cfg i₂ s₂ = faulted s₂ i₂.word (check cfg i₁.header s₁)) := by
  rcases runIn_cases cfg i₁ s₁ with ⟨hn, hr, e₁⟩ | ⟨ht, hr, e₁⟩ | ⟨ht, hn, e₁⟩
  · rw [hf, hop] at hr
    exact .inl ⟨hn, e₁, (runIn_eq_frame cfg i₂ s₂).trans (frame_of_runs hr (hc ▸ hn))⟩
  · rcases runIn_cases cfg i₂ s₂ with ⟨hn', hr', -⟩ | ⟨-, -, e₂⟩ | ⟨ht', -, -⟩
    · rw [← hf, ← hop] at hr'
      rcases hr with hr | hr
      · rw [hr' ht] at hr; cases hr
      · exact absurd (hc.trans hn') hr
    · exact .inr (.inl ⟨e₁, e₂⟩)
    · rw [← hf, ht] at ht'; cases ht'
  · refine .inr (.inr ⟨e₁, ?_⟩)
    rw [runIn_eq_frame, hc, frame_of_violation (hf ▸ ht) (hc ▸ hn)]; rfl

/-- What a body is told of the state besides its slot is FCMD, and for CLONE the source (41_context.md R106, R114). -/
theorem bodyOf_congr (cfg : Config) {i : Instr} {s₁ s₂ : State} (hw : s₁.fcmd = s₂.fcmd)
    (hsrc : ∀ d a, i = .clone d a → s₁.slotAt a.toNat = s₂.slotAt a.toNat) : bodyOf cfg i s₁ = bodyOf cfg i s₂ := by
  cases i with
  | query _ => simp only [bodyOf, hw]
  | clone d a => simp only [bodyOf, hsrc d a rfl]
  | _ => rfl

end Sys2Proof.Machine
end

section
/-! PROOF of O24 and O25: the outcome of a command is a function of the slot it addresses, of CLONE's source, of the fault
record and of the answers so far (spec/10_state.md R17; spec/41_context.md R114, R115), so equal slots answer alike. -/

namespace Sys2Proof.Machine

/-- Slot `c₁` of one state is as slot `c₂` of another, and the host sees both engines alike. FCMD is left out: it holds
the slot number of a faulting word. -/
structure Mirrored (c₁ c₂ : Nat) (s₁ s₂ : State) : Prop where
  slot : s₁.slotAt c₁ = s₂.slotAt c₂
  inRange : c₁ < s₁.slots.length ↔ c₂ < s₂.slots.length
  fault : s₁.fault = s₂.fault
  cause : s₁.cause = s₂.cause
  responses : s₁.responses = s₂.responses

/-- Commands with one body, and alike under CHECK, keep mirrored slots mirrored; FCMD either stays on both sides or
records the two command words. -/
theorem Mirrored.after_command {cfg : Config} {i₁ i₂ : Instr} {s₁ s₂ : State}
    (h : Mirrored (slotOf i₁) (slotOf i₂) s₁ s₂) (hop : i₁.header.op = i₂.header.op) (hex : slotsExist cfg i₁.header = slotsExist cfg i₂.header)
    (hl : lengthCause i₁.header = lengthCause i₂.header) (hb : bodyOf cfg i₁ s₁ = bodyOf cfg i₂ s₂) :
    Mirrored (slotOf i₁) (slotOf i₂) (runIn cfg i₁ s₁) (runIn cfg i₂ s₂) ∧
      (((runIn cfg i₁ s₁).fcmd = s₁.fcmd ∧ (runIn cfg i₂ s₂).fcmd = s₂.fcmd) ∨
        ((runIn cfg i₁ s₁).fault = true ∧ (runIn cfg i₁ s₁).fcmd = i₁.word ∧ (runIn cfg i₂ s₂).fcmd = i₂.word)) := by
  obtain ⟨hs, hin, hf, hcause, hr⟩ := h
  have hc : check cfg i₁.header s₁ = check cfg i₂.header s₂ :=
    check_congr hop hex hl (congrArg Slot.phase hs) (congrArg Slot.persona hs)
  have hin' : slotOf i₁ < (runIn cfg i₁ s₁).slots.length ↔ slotOf i₂ < (runIn cfg i₂ s₂).slots.length := by
    simpa using hin
  rcases runIn_lockstep hop hc hf with ⟨-, e₁, e₂⟩ | ⟨e₁, e₂⟩ | ⟨e₁, e₂⟩ <;> rw [e₁, e₂] at hin' ⊢
  · have hs' : s₁.slotAt i₁.header.ctx.toNat = s₂.slotAt i₂.header.ctx.toNat := hs
    refine ⟨⟨?_, hin', hf, hcause, ?_⟩, .inl ⟨rfl, rfl⟩⟩
    · simp only [complete_eq_answered, slotOf, slotAt_answered] at hin ⊢
      simp only [hb, hs', hin]
    · simp only [complete_eq_answered, answered_responses, hb, hs', hf, hcause, hr]
  · exact ⟨⟨hs, hin', hf, hcause, by simp only [rejected_responses, hr, hcause]⟩, .inl ⟨rfl, rfl⟩⟩
  · exact ⟨⟨hs, hin', rfl, rfl, by simp only [faulted_responses, hr]⟩, .inr ⟨rfl, rfl, rfl⟩⟩

/-- Settles O24: one command on two states whose addressed slots mirror each other. -/
theorem otherSlotsUnread : Obligations.OtherSlotsUnread := by
  intro i s₁ s₂ t₁ t₂ hn hs hsrc hf hc hw hr h₁ h₂
  rw [eq_runIn_of_exec h₁, eq_runIn_of_exec h₂]
  have hm : Mirrored (slotOf i) (slotOf i) s₁ s₂ := ⟨hs, by rw [hn], hf, hc, hr⟩
  obtain ⟨⟨hs', -, hf', hc', hr'⟩, hfcmd⟩ := hm.after_command rfl rfl rfl (bodyOf_congr Config.hw hw hsrc)
  refine ⟨hr', hs', hf', hc', ?_⟩
  rcases hfcmd with ⟨e₁, e₂⟩ | ⟨-, e₁, e₂⟩
  · rw [e₁, e₂, hw]
  · rw [e₁, e₂]

/-! ### One command addressed to two slots -/

/-- But for NOP, retargeting replaces CTX and nothing else of the command word. -/
theorem header_retarget {i : Instr} (h : i ≠ .nop) (c : BitVec 4) :
    (retarget c i).header = { i.header with ctx := c } := by
  cases i with
  | nop => exact absurd rfl h
  | _ => rfl

theorem slotOf_retarget {i : Instr} (h : i ≠ .nop) (c : BitVec 4) : slotOf (retarget c i) = c.toNat := by
  rw [slotOf, header_retarget h]

/-- The body does not depend on the slot it is addressed to. -/
theorem bodyOf_retarget (cfg : Config) (c : BitVec 4) (i : Instr) (s : State) :
    bodyOf cfg (retarget c i) s = bodyOf cfg i s := by
  cases i <;> rfl

/-- Two runs of one engine since a CLONE between slots `c` and `d`, the first addressed to `c`, the second to `d`. -/
structure TwinRuns (c d : Nat) (u v : State) : Prop where
  mirrored : Mirrored c d u v
  fcmd : u.fault = false → u.fcmd = v.fcmd
  others : ∀ k, k ≠ c → k ≠ d → u.slotAt k = v.slotAt k

/-- What O25 asks of each command of the run: no NOP, and no CLONE out of either twin. -/
def TwinCommand (c d : BitVec 4) (i : Instr) : Prop :=
  i ≠ .nop ∧ ∀ e a, i = .clone e a → a.toNat ≠ c.toNat ∧ a.toNat ≠ d.toNat

section Twins

variable {cfg : Config} {c d : BitVec 4} (hc : c.toNat < cfg.nCtx) (hd : d.toNat < cfg.nCtx)
include hc hd

/-- One command to either twin of a running engine. -/
theorem TwinRuns.after_command {u v : State} (h : TwinRuns c.toNat d.toNat u v) (hf : u.fault = false) {i : Instr}
    (hi : TwinCommand c d i) :
    TwinRuns c.toNat d.toNat (runIn cfg (retarget c i) u) (runIn cfg (retarget d i) v) := by
  obtain ⟨hnop, hsrc⟩ := hi
  obtain ⟨hm, hw, ho⟩ := h
  have hb : bodyOf cfg (retarget c i) u = bodyOf cfg (retarget d i) v := by
    rw [bodyOf_retarget, bodyOf_retarget]
    exact bodyOf_congr cfg (hw hf) fun e a hcl => ho _ (hsrc e a hcl).1 (hsrc e a hcl).2
  have hex : slotsExist cfg (retarget c i).header = slotsExist cfg (retarget d i).header := by
    simp [header_retarget hnop, slotsExist, hc, hd]
  have hl : lengthCause (retarget c i).header = lengthCause (retarget d i).header := by
    rw [header_retarget hnop, header_retarget hnop]; rfl
  have hop : (retarget c i).header.op = (retarget d i).header.op := by
    rw [header_retarget hnop, header_retarget hnop]
  rw [← slotOf_retarget hnop c, ← slotOf_retarget hnop d] at hm
  obtain ⟨hm', hfcmd⟩ := hm.after_command hop hex hl hb
  rw [slotOf_retarget hnop, slotOf_retarget hnop] at hm'
  refine ⟨hm', fun hf' => ?_, fun k hkc hkd => ?_⟩
  · rcases hfcmd with ⟨e₁, e₂⟩ | ⟨ht, -, -⟩
    · rw [e₁, e₂, hw hf]
    · rw [hf'] at ht; cases ht
  · rw [slotAt_runIn_of_ne (by rwa [slotOf_retarget hnop]), slotAt_runIn_of_ne (by rwa [slotOf_retarget hnop])]
    exact ho k hkc hkd

/-- A run to either twin that raises no fault. -/
theorem TwinRuns.after_run {is : List Instr} (his : ∀ j ∈ is, TwinCommand c d j) {u v : State}
    (h : TwinRuns c.toNat d.toNat u v) (hf : (runAllIn cfg (is.map (retarget c)) u).fault = false) :
    TwinRuns c.toNat d.toNat (runAllIn cfg (is.map (retarget c)) u) (runAllIn cfg (is.map (retarget d)) v) := by
  induction is generalizing u v with
  | nil => exact h
  | cons j js ih =>
    have hu : u.fault = false := fault_of_runAllIn hf
    exact ih (fun k hk => his k (List.mem_cons_of_mem _ hk)) (h.after_command hc hd hu (his j List.mem_cons_self)) hf

end Twins

/-- A run writes no slot that none of its commands addresses (R17). -/
theorem slotAt_runAllIn_of_ne {cfg : Config} {is : List Instr} {c : Nat} (h : ∀ i ∈ is, c ≠ slotOf i) (s : State) :
    (runAllIn cfg is s).slotAt c = s.slotAt c := by
  induction is generalizing s with
  | nil => rfl
  | cons i is ih =>
    calc (runAllIn cfg is (runIn cfg i s)).slotAt c
      _ = (runIn cfg i s).slotAt c := ih (fun j hj => h j (List.mem_cons_of_mem _ hj)) _
      _ = s.slotAt c := slotAt_runIn_of_ne (h i List.mem_cons_self) s

/-- A run addressed to `c` leaves every other slot alone. -/
theorem slotAt_runAllIn_retarget {cfg : Config} {is : List Instr} {c : BitVec 4} {k : Nat} (hk : k ≠ c.toNat)
    (h : ∀ i ∈ is, i ≠ .nop) (s : State) : (runAllIn cfg (is.map (retarget c)) s).slotAt k = s.slotAt k := by
  refine slotAt_runAllIn_of_ne (fun i hi => ?_) s
  obtain ⟨j, hj, rfl⟩ := List.mem_map.1 hi
  rwa [slotOf_retarget (h j hj)]

/-- What CLONE leaves on a running engine: the source's context in the destination, and FAULT = 0 (41_context.md R114). -/
theorem runIn_clone {cfg : Config} {s : State} {dst src : BitVec 4} (hn : s.slots.length = cfg.nCtx)
    (hf : s.fault = false) (hd : dst.toNat < cfg.nCtx) (hs : src.toNat < cfg.nCtx) :
    (runIn cfg (.clone dst (src.setWidth 8)) s).fault = false ∧
      (runIn cfg (.clone dst (src.setWidth 8)) s).slotAt dst.toNat = s.slotAt src.toNat := by
  have hsrc : (src.setWidth 8).toNat = src.toNat := by rw [BitVec.toNat_setWidth]; omega
  have hc : check cfg (Instr.clone dst (src.setWidth 8)).header s = .none :=
    (check_eq_none _ _ _).2 ⟨by simp [slotsExist, Instr.header, hd, hsrc, hs], rfl, rfl⟩
  constructor
  · rw [runIn_eq_frame, frame_of_check hf hc]; exact hf
  · have h := slotAt_runIn_self hf hc (hd.trans_eq hn.symm)
    rw [show (bodyOf cfg (.clone dst (src.setWidth 8)) s _).slot = s.slotAt (src.setWidth 8).toNat from rfl, hsrc] at h
    exact h

/-- Settles O25: right after the CLONE the two slots are twins of one state, and stay so up to the first fault. -/
theorem clonesAreEqualAndIndependent : Obligations.ClonesAreEqualAndIndependent := by
  refine ⟨exec_eq_runIn, fun cfg s dst src hn hf hd hs hne t ht => ?_⟩
  have hne' : src.toNat ≠ dst.toNat := fun h => hne (BitVec.eq_of_toNat_eq h.symm)
  obtain ⟨htf, hdst⟩ : t.fault = false ∧ t.slotAt dst.toNat = s.slotAt src.toNat := ht ▸ runIn_clone hn hf hd hs
  have hsrc : t.slotAt src.toNat = s.slotAt src.toNat := ht ▸ slotAt_runIn_of_ne hne' s
  have hlen : t.slots.length = cfg.nCtx := ht ▸ (slots_length_runIn _ _ _).trans hn
  refine ⟨htf, hdst, hsrc, fun is i u v his hfault hu hv => ?_⟩
  have his' : ∀ j ∈ is, TwinCommand dst src j := fun j hj => his j (List.mem_append_left _ hj)
  have hi : TwinCommand dst src i := his i (by simp)
  have h0 : TwinRuns dst.toNat src.toNat t t :=
    ⟨⟨hdst.trans hsrc.symm, by simp [hlen, hd, hs], rfl, rfl, rfl⟩, fun _ => rfl, fun _ _ _ => rfl⟩
  have h1 := (h0.after_run hd hs his' hfault).after_command hd hs hfault hi
  have hnop : ∀ j ∈ is ++ [i], j ≠ .nop := fun j hj => (his j hj).1
  have hufr : u.slotAt src.toNat = t.slotAt src.toNat := hu ▸ slotAt_runAllIn_retarget hne' hnop t
  have hvfr : v.slotAt dst.toNat = t.slotAt dst.toNat := hv ▸ slotAt_runAllIn_retarget hne'.symm hnop t
  rw [List.map_append, runAllIn_append] at hu hv
  subst hu hv
  exact ⟨h1.mirrored.responses, h1.mirrored.slot, hufr, hvfr⟩

end Sys2Proof.Machine
end

section
/-! PROOF of O26 and O27. Two states whose slots agree in what a view of them shows. A view that shows PHASE and PERSONA
is respected by every command whose body respects it; the control fields (spec/10_state.md R15, R32) and the slots without
their dead state words (R33) are such views. -/

namespace Sys2Proof.Machine

variable {α : Type} {f : Slot → α} {cfg : Config} {s₁ s₂ : State} {i : Instr}

/-! ### A view of the slots -/

/-- The slots agree under the view `f`, and the fault records are the same. -/
def AgreeUnder (f : Slot → α) (s₁ s₂ : State) : Prop :=
  s₁.slots.map f = s₂.slots.map f ∧ s₁.fault = s₂.fault ∧ s₁.cause = s₂.cause ∧ s₁.fcmd = s₂.fcmd

/-- The view shows what CHECK and the response word read of a slot (60_exceptions.md R239, 20_memory.md R55). -/
def ShowsLifecycle (f : Slot → α) : Prop := ∀ a b, f a = f b → a.phase = b.phase ∧ a.persona = b.persona

/-- The body of `i` gives its slot in the two states contents that `f` does not tell apart. -/
def BodyAgrees (f : Slot → α) (cfg : Config) (i : Instr) (s₁ s₂ : State) : Prop :=
  f (bodyOf cfg i s₁ (s₁.slotAt (slotOf i))).slot = f (bodyOf cfg i s₂ (s₂.slotAt (slotOf i))).slot

/-- The body of `i` gives the host the same in the two states: output bytes and verdict. -/
def BodyAnswersAlike (cfg : Config) (i : Instr) (s₁ s₂ : State) : Prop :=
  (bodyOf cfg i s₁ (s₁.slotAt (slotOf i))).out = (bodyOf cfg i s₂ (s₂.slotAt (slotOf i))).out ∧
    (bodyOf cfg i s₁ (s₁.slotAt (slotOf i))).verdict = (bodyOf cfg i s₂ (s₂.slotAt (slotOf i))).verdict

/-- The slots agree one by one, whatever the slot number. -/
theorem AgreeUnder.slotAt (h : AgreeUnder f s₁ s₂) (c : Nat) : f (s₁.slotAt c) = f (s₂.slotAt c) := by
  obtain ⟨hs, -, -, -⟩ := h
  calc f (s₁.slotAt c) = (s₁.slots.map f).getD c (f Slot.empty) := (List.getD_map ..).symm
    _ = (s₂.slots.map f).getD c (f Slot.empty) := by rw [hs]
    _ = f (s₂.slotAt c) := List.getD_map ..

/-- A command is admitted, rejected or faults alike in the two states. -/
theorem AgreeUnder.check_eq (hf : ShowsLifecycle f) (h : AgreeUnder f s₁ s₂) (cfg : Config) (i : Instr) :
    check cfg i.header s₁ = check cfg i.header s₂ := by
  obtain ⟨hp, hq⟩ := hf _ _ (h.slotAt i.header.ctx.toNat)
  exact check_congr rfl rfl rfl hp hq

/-- A command whose body respects the view keeps the two states in agreement. -/
theorem AgreeUnder.after_command (hf : ShowsLifecycle f) (h : AgreeUnder f s₁ s₂)
    (hb : check cfg i.header s₁ = .none → BodyAgrees f cfg i s₁ s₂) :
    AgreeUnder f (runIn cfg i s₁) (runIn cfg i s₂) := by
  have hc := h.check_eq hf cfg i
  obtain ⟨hs, hfault, hcause, hfcmd⟩ := h
  rcases runIn_lockstep rfl hc hfault with ⟨hn, e₁, e₂⟩ | ⟨e₁, e₂⟩ | ⟨e₁, e₂⟩ <;> rw [e₁, e₂]
  · refine ⟨?_, hfault, hcause, hfcmd⟩
    have hb' : f (bodyOf cfg i s₁ (s₁.slotAt i.header.ctx.toNat)).slot =
        f (bodyOf cfg i s₂ (s₂.slotAt i.header.ctx.toNat)).slot := hb hn
    simp only [complete_eq_answered, answered_slots, List.map_set, hs, hb']
  · exact ⟨hs, hfault, hcause, hfcmd⟩
  · exact ⟨hs, rfl, rfl, rfl⟩

/-- A command whose body also answers alike is answered alike. -/
theorem AgreeUnder.responses_after_command (hf : ShowsLifecycle f) (h : AgreeUnder f s₁ s₂)
    (hr : s₁.responses = s₂.responses) (hb : check cfg i.header s₁ = .none → BodyAgrees f cfg i s₁ s₂)
    (ha : check cfg i.header s₁ = .none → BodyAnswersAlike cfg i s₁ s₂) :
    (runIn cfg i s₁).responses = (runIn cfg i s₂).responses := by
  have hc := h.check_eq hf cfg i
  obtain ⟨-, hfault, hcause, -⟩ := h
  rcases runIn_lockstep rfl hc hfault with ⟨hn, e₁, e₂⟩ | ⟨e₁, e₂⟩ | ⟨e₁, e₂⟩ <;> rw [e₁, e₂]
  · obtain ⟨hp, hq⟩ := hf _ _ (hb hn)
    obtain ⟨ho, hv⟩ := ha hn
    simp only [slotOf] at hp hq ho hv
    simp only [complete_eq_answered, answered_responses, hp, hq, ho, hv, hr, hfault, hcause]
  · simp only [rejected_responses, hr, hcause]
  · simp only [faulted_responses, hr]

/-! ### The view of the control fields (R15, R32, R106) -/

theorem sameStatus_iff : SameStatus s₁ s₂ ↔ AgreeUnder slotStatus s₁ s₂ := Iff.rfl

/-- Two slots have the same status just when their control fields are the same. -/
theorem slotStatus_eq_iff (a b : Slot) :
    slotStatus a = slotStatus b ↔ a.phase = b.phase ∧ a.persona = b.persona ∧ a.bufLen = b.bufLen ∧ a.sqPos = b.sqPos := by
  simp only [slotStatus, Prod.mk.injEq]

theorem slotStatus_showsLifecycle : ShowsLifecycle slotStatus := by
  intro a b h
  obtain ⟨hp, hq, -, -⟩ := (slotStatus_eq_iff a b).1 h
  exact ⟨hp, hq⟩

/-- QUERY shows no more of a slot than its status (41_context.md R106). -/
theorem queryPayload_congr (cfg : Config) (w : BitVec 32) {a b : Slot} (h : slotStatus a = slotStatus b) :
    queryPayload cfg w a = queryPayload cfg w b := by
  obtain ⟨hp, hq, hn, hs⟩ := (slotStatus_eq_iff a b).1 h
  simp only [queryPayload, hp, hq, hn, hs]

/-- How many bytes are buffered after APPEND depends on how many were, not on which (R89). -/
theorem slotStatus_append (cfg : Config) {a b : Slot} (h : slotStatus a = slotStatus b) (x : Byte) :
    slotStatus (append cfg a x) = slotStatus (append cfg b x) := by
  obtain ⟨hp, hq, hn, hs⟩ := (slotStatus_eq_iff a b).1 h
  rw [slotStatus_eq_iff]
  unfold append
  simp only [hn]
  split <;> simp [hp, hq, hs]

theorem slotStatus_appendAll (cfg : Config) {a b : Slot} (h : slotStatus a = slotStatus b) (bytes : List Byte) :
    slotStatus (appendAll cfg a bytes) = slotStatus (appendAll cfg b bytes) := by
  induction bytes generalizing a b with
  | nil => exact h
  | cons x xs ih => exact ih (slotStatus_append cfg h x)

/-- Where READ is in its block depends on where it was, not on the bytes (44_prf.md R163). -/
theorem slotStatus_nextByte (cfg : Config) {a b : Slot} (h : slotStatus a = slotStatus b) :
    slotStatus (nextByte cfg a).2 = slotStatus (nextByte cfg b).2 := by
  obtain ⟨hp, hq, hn, hs⟩ := (slotStatus_eq_iff a b).1 h
  rw [slotStatus_eq_iff]
  unfold nextByte deliverByte
  simp only [hs]
  split <;> simp [hp, hq, hn]

theorem slotStatus_readBytes (cfg : Config) (n : Nat) {a b : Slot} (h : slotStatus a = slotStatus b) :
    slotStatus (readBytes cfg n a).2 = slotStatus (readBytes cfg n b).2 := by
  induction n generalizing a b with
  | zero => exact h
  | succ n ih => exact ih (slotStatus_nextByte cfg h)

/-- What a body does to the control fields is a function of the control fields (R15, R32). -/
theorem bodyAgrees_slotStatus (h : AgreeUnder slotStatus s₁ s₂) : BodyAgrees slotStatus cfg i s₁ s₂ := by
  have hi := h.slotAt (slotOf i)
  obtain ⟨hp, hq, hn, hs⟩ := (slotStatus_eq_iff _ _).1 hi
  unfold BodyAgrees
  cases i with
  | nop => exact hi
  | query _ => exact hi
  | clear _ => rfl
  | clone _ src => exact h.slotAt src.toNat
  | initMac _ _ _ => rfl
  | initPrf _ _ _ => rfl
  | seedPrng _ _ _ => rfl
  | absorb _ bytes =>
    obtain ⟨-, hq', hn', hs'⟩ := (slotStatus_eq_iff _ _).1 (slotStatus_appendAll cfg hi bytes)
    simp only [bodyOf, absorbBody, slotStatus, hp, hq', hn', hs']
  | finalMac _ => simp only [bodyOf, finalMacBody, consumeMac_eq, slotStatus, hq, hs]
  | verifyMac _ _ _ => simp only [bodyOf, verifyMacBody, consumeMac_eq, slotStatus, hq, hs]
  | finalPrf _ => simp only [bodyOf, finalPrfBody, slotStatus, padFlush_persona, padFlush_bufLen, hq]
  | read _ n => exact slotStatus_readBytes cfg n.toNat hi
  | feedEnd _ => simp only [bodyOf, feedEndBody, slotStatus, padFlush_persona, padFlush_bufLen, padFlush_sqPos, hq, hs]
  | generate _ => exact hi
  | short _ _ _ _ => rfl

/-- But for the four commands R15 names, the host gets a function of the control fields and the operands. -/
theorem bodyAnswersAlike_of_slotStatus (h : AgreeUnder slotStatus s₁ s₂) (h₁ : ∀ c, i ≠ .finalMac c)
    (h₂ : ∀ c len tag, i ≠ .verifyMac c len tag) (h₃ : ∀ c n, i ≠ .read c n) (h₄ : ∀ c, i ≠ .generate c) :
    BodyAnswersAlike cfg i s₁ s₂ := by
  have hi := h.slotAt (slotOf i)
  obtain ⟨-, -, -, hw⟩ := h
  cases i with
  | query _ =>
    refine ⟨?_, rfl⟩
    simp only [bodyOf, queryBody, hw]
    exact queryPayload_congr cfg s₂.fcmd hi
  | finalMac c => exact absurd rfl (h₁ c)
  | verifyMac c len tag => exact absurd rfl (h₂ c len tag)
  | read c n => exact absurd rfl (h₃ c n)
  | generate c => exact absurd rfl (h₄ c)
  | _ => exact ⟨rfl, rfl⟩

/-- Settles O26: the control fields are a view that every body respects. -/
theorem secretsShowOnlyThroughOutputs : Obligations.SecretsShowOnlyThroughOutputs := by
  intro i s₁ s₂ t₁ t₂ h e₁ e₂
  rw [sameStatus_iff] at h ⊢
  rw [eq_runIn_of_exec e₁, eq_runIn_of_exec e₂]
  have hb : BodyAgrees slotStatus Config.hw i s₁ s₂ := bodyAgrees_slotStatus h
  refine ⟨h.after_command slotStatus_showsLifecycle fun _ => hb, fun h₁ h₂ h₃ h₄ hr => ?_⟩
  exact h.responses_after_command slotStatus_showsLifecycle hr (fun _ => hb)
    fun _ => bodyAnswersAlike_of_slotStatus h h₁ h₂ h₃ h₄

/-! ### The view without dead state words (R33) -/

theorem sameLiveState_iff :
    SameLiveState s₁ s₂ ↔ AgreeUnder forgetDeadWords s₁ s₂ ∧ s₁.responses = s₂.responses := by
  simp only [SameLiveState, AgreeUnder, and_assoc]

/-- Forgetting dead words touches no control field. -/
@[simp] theorem slotStatus_forgetDeadWords (sl : Slot) : slotStatus (forgetDeadWords sl) = slotStatus sl := by
  unfold forgetDeadWords
  split <;> rfl

/-- A context's slot has no dead words. -/
theorem forgetDeadWords_of_live {sl : Slot} (he : sl.phase ≠ .empty) (hd : sl.phase ≠ .done) : forgetDeadWords sl = sl :=
  if_neg (not_or_intro he hd)

/-- The view shows the control fields. -/
theorem slotStatus_eq_of_forgetDeadWords {a b : Slot} (h : forgetDeadWords a = forgetDeadWords b) :
    slotStatus a = slotStatus b := by
  simpa using congrArg slotStatus h

theorem forgetDeadWords_showsLifecycle : ShowsLifecycle forgetDeadWords := fun a b h =>
  slotStatus_showsLifecycle a b (slotStatus_eq_of_forgetDeadWords h)

/-- A command that neither an EMPTY nor a DONE slot admits sees its slot whole. -/
theorem AgreeUnder.live_slot_eq (h : AgreeUnder forgetDeadWords s₁ s₂) {o : Opcode} {c : Nat}
    (ha : admits o (s₁.slotAt c).phase (s₁.slotAt c).persona = true) (he : ∀ q, admits o .empty q = false)
    (hd : ∀ q, admits o .done q = false) : s₁.slotAt c = s₂.slotAt c := by
  have hview := h.slotAt c
  obtain ⟨hp, -⟩ := forgetDeadWords_showsLifecycle _ _ hview
  have hne : (s₁.slotAt c).phase ≠ .empty := fun e => by rw [e, he] at ha; cases ha
  have hnd : (s₁.slotAt c).phase ≠ .done := fun e => by rw [e, hd] at ha; cases ha
  rwa [forgetDeadWords_of_live hne hnd, forgetDeadWords_of_live (hp ▸ hne) (hp ▸ hnd)] at hview

/-- No admitted command lets dead words out, to the host or to live state words (R33). -/
theorem body_forgetDeadWords (h : AgreeUnder forgetDeadWords s₁ s₂)
    (ha : admits i.header.op (s₁.slotAt (slotOf i)).phase (s₁.slotAt (slotOf i)).persona = true) :
    BodyAgrees forgetDeadWords cfg i s₁ s₂ ∧ BodyAnswersAlike cfg i s₁ s₂ := by
  have hi := h.slotAt (slotOf i)
  obtain ⟨-, -, -, hw⟩ := id h
  unfold BodyAgrees BodyAnswersAlike
  cases i with
  | nop => exact ⟨hi, rfl, rfl⟩
  | query _ =>
    refine ⟨hi, ?_, rfl⟩
    simp only [bodyOf, queryBody, hw]
    exact queryPayload_congr cfg s₂.fcmd (slotStatus_eq_of_forgetDeadWords hi)
  | clear _ => exact ⟨rfl, rfl, rfl⟩
  | clone _ src => exact ⟨h.slotAt src.toNat, rfl, rfl⟩
  | initMac _ _ _ => exact ⟨rfl, rfl, rfl⟩
  | initPrf _ _ _ => exact ⟨rfl, rfl, rfl⟩
  | seedPrng _ _ _ => exact ⟨rfl, rfl, rfl⟩
  | short _ _ _ _ => exact ⟨rfl, rfl, rfl⟩
  | absorb _ _ | finalMac _ | verifyMac _ _ _ | finalPrf _ | read _ _ | feedEnd _ | generate _ =>
    rw [h.live_slot_eq ha (fun _ => rfl) (fun _ => rfl)]
    exact ⟨rfl, rfl, rfl⟩

/-- Settles O27: the slots without their dead words are a view that every admitted body respects and answers from. -/
theorem deadWordsAreNeverOutput : Obligations.DeadWordsAreNeverOutput := by
  intro i s₁ s₂ t₁ t₂ hlive e₁ e₂
  obtain ⟨h, hr⟩ := sameLiveState_iff.1 hlive
  rw [sameLiveState_iff, eq_runIn_of_exec e₁, eq_runIn_of_exec e₂]
  have hb : check Config.hw i.header s₁ = .none →
      BodyAgrees forgetDeadWords Config.hw i s₁ s₂ ∧ BodyAnswersAlike Config.hw i s₁ s₂ :=
    fun hn => body_forgetDeadWords h (admits_of_check hn)
  exact ⟨h.after_command forgetDeadWords_showsLifecycle fun hn => (hb hn).1,
    h.responses_after_command forgetDeadWords_showsLifecycle hr (fun hn => (hb hn).1) fun hn => (hb hn).2⟩

end Sys2Proof.Machine
end

section
/-! PROOF of O6 and O10: a delivered command on the port (spec/20_memory.md R53, R57; spec/30_encoding.md R77). Its word
and payload are an instruction, which the step runs, or are rejected by the decoder; either way the step takes the word
and `in_len` bytes off the port. -/

namespace Sys2Proof.Machine

/-! ### What a step on a delivered command runs -/

/-- A word and payload that decode are run as the instruction they decode to (60_exceptions.md R237). -/
theorem runCommand_of_ok {meaning : Instr → State → Host.Outcome State Fault Refusal} {w : BitVec 32}
    {payload : List Byte} {i : Instr} (h : decode w payload = .ok i) (s : State) :
    runCommand meaning w payload s = meaning i s := by
  simp only [runCommand, h]

/-- A word the decoder rejects is answered by the frame for such words. -/
theorem runCommand_of_error {meaning : Instr → State → Host.Outcome State Fault Refusal} {w : BitVec 32}
    {payload : List Byte} {e : DecodeError} (h : decode w payload = .error e) (s : State) :
    runCommand meaning w payload s = .next (frameRejected w e s) := by
  simp only [runCommand, h]

/-- An instruction that the port decodes has the command word it was decoded from. -/
theorem word_of_decode {w : BitVec 32} {payload : List Byte} {i : Instr} (hl : payload.length = inLen w)
    (h : decode w payload = .ok i) : i.word = w := by
  rcases decode_cases w payload with ⟨hd, hw, hok⟩ | ⟨e, -, -, herr⟩
  · rw [hok] at h; cases h
    obtain ⟨rfl, hres⟩ := Header.of_ofWord hw
    obtain ⟨-, hheader, -⟩ := header_instr hd payload hres hl
    rw [Instr.word, hheader]
  · rw [herr] at h; cases h

/-- Everything a step on a delivered command can be: one command of the hardware with that word, or the frame around a
word that is no instruction. -/
theorem step_delivered_cases {s : State} {w : BitVec 32} {payload : List Byte} {rest : List PortItem}
    (h : Delivers s w payload rest) :
    (∃ i : Instr, i.word = w ∧ step s = .next (runIn Config.hw i { s with input := rest })) ∨
    (∃ e, step s = .next (frameRejected w e { s with input := rest })) := by
  obtain ⟨hl, -, -⟩ := id h
  rw [step_of_delivers h]
  cases hd : decode w payload with
  | ok i => exact .inl ⟨i, word_of_decode hl hd, by rw [runCommand_of_ok hd, exec_eq_runIn]⟩
  | error e => exact .inr ⟨e, runCommand_of_error hd _⟩

/-- Settles O10: the step runs the delivered command, and a command that decodes is its instruction. -/
theorem stepRunsTheDecodedInstruction : Obligations.StepRunsTheDecodedInstruction := by
  intro s w payload rest i hdel hdec
  rw [step_of_delivers hdel, runCommand_of_ok hdec]

/-! ### The length of the input payload -/

/-- An OP field is compared as a number (30_encoding.md R62). -/
theorem opField_eq_iff (w : BitVec 32) (op : BitVec 8) : opField w = op ↔ opOf w = op.toNat := by
  obtain ⟨hop, -, -, -, -⟩ := field_nat w
  rw [← hop, BitVec.toNat_inj]

/-- `in_len` of a word, by its digits (R77). -/
theorem inLen_eq (w : BitVec 32) :
    inLen w =
      if opOf w ∈ [0x10, 0x11, 0x12, 0x31] then 16
      else if opOf w = 0x20 then lenOf w
      else if opOf w = 0x60 then 16 + lenOf w
      else 0 := by
  obtain ⟨-, hlen, -, -, -⟩ := field_nat w
  simp [inLen, opField_eq_iff, hlen]

/-- Settles O6: `in_len` by the word's digits, and what the one answer to a delivered command leaves on the port. -/
theorem payloadLengthIsTotal : Obligations.PayloadLengthIsTotal := by
  refine fun w => ⟨inLen_eq w, fun s payload rest hdel => ?_⟩
  obtain ⟨-, answeredOnDelivery⟩ := everyCommandIsAnsweredOnce
  obtain ⟨t, -, hstep, -, hin⟩ := answeredOnDelivery s w payload rest hdel
  exact ⟨t, hstep, hin⟩

end Sys2Proof.Machine
end

section
/-! PROOF of O43: the output payload (spec/20_memory.md R56). A body's output has the length the table gives its word, and
an answer with OK = 0 has none. -/

namespace Sys2Proof.Machine

/-! ### The digits of a header's word -/

theorem opOf_toWord (h : Header) : opOf h.toWord = h.op.code.toNat := by
  obtain ⟨hop, -, -, -, -⟩ := field_nat h.toWord
  rw [← hop, Header.toWord, opField_wordOfFields]

theorem lenOf_toWord (h : Header) : lenOf h.toWord = h.len.toNat := by
  obtain ⟨-, hlen, -, -, -⟩ := field_nat h.toWord
  rw [← hlen, Header.toWord, lenField_wordOfFields]

theorem auxOf_toWord (h : Header) : auxOf h.toWord = h.aux.toNat := by
  obtain ⟨-, -, haux, -, -⟩ := field_nat h.toWord
  rw [← haux, Header.toWord, auxField_wordOfFields]

/-! ### The table of R56 -/

/-- The length of the output payload of a completed command, by its word (R56). -/
def outLen (w : BitVec 32) : Nat :=
  if opOf w = 0x01 then 12
  else if opOf w = 0x30 then 16
  else if opOf w = 0x40 then lenOf w
  else if opOf w = 0x51 then 16
  else if opOf w = 0x60 then auxOf w
  else 0

/-- The table, by the opcode of a header's word. -/
theorem outLen_toWord (h : Header) :
    outLen h.toWord =
      match h.op with
      | .query => 12
      | .finalMac => 16
      | .read => h.len.toNat
      | .generate => 16
      | .short => h.aux.toNat
      | _ => 0 := by
  obtain ⟨op, len, aux, ctx⟩ := h
  cases op <;> simp [outLen, opOf_toWord, lenOf_toWord, auxOf_toWord, Opcode.code]

/-! ### The output of a body -/

@[simp] theorem queryPayload_length (cfg : Config) (fcmd : BitVec 32) (sl : Slot) :
    (queryPayload cfg fcmd sl).length = 12 := rfl

@[simp] theorem shortTag16_length (cfg : Config) (key : List Byte) (s : Words) :
    (shortTag16 cfg key s).length = 16 := rfl

/-- CHECK's length test bounds SHORT's tag length (60_exceptions.md R238 step 4). -/
theorem tagLength_le_of_lengthCause {ctx : BitVec 4} {t : BitVec 8} {key msg : List Byte}
    (h : lengthCause (Instr.short ctx t key msg).header = .none) : t.toNat ≤ 16 := by
  by_contra ht
  have hlong : lengthCause (Instr.short ctx t key msg).header = .shortLength := if_neg fun hle => ht hle.2
  cases hlong.symm.trans h

/-- A body whose command passes the length test puts out as many bytes as the table says. -/
theorem bodyOf_out_length (cfg : Config) {i : Instr} (s : State) (sl : Slot) (h : lengthCause i.header = .none) :
    (bodyOf cfg i s sl).out.length = outLen i.word := by
  rw [Instr.word, outLen_toWord]
  cases i with
  | read _ n => exact readBytes_length cfg n.toNat sl
  | short _ t key msg =>
    have ht := tagLength_le_of_lengthCause h
    simp only [bodyOf, shortBody, List.length_take, shortTag16_length]
    exact Nat.min_eq_left ht
  | _ => rfl

/-! ### The answer -/

/-- The answer has as many payload bytes as R56 gives a command with word `w`: none if OK = 0. -/
def HasOutLen (w : BitVec 32) (r : Response) : Prop :=
  r.payload.length = if r.word.getLsbD 0 = false then 0 else outLen w

/-- A completed answer has OK = 1, so its length is the table's. -/
theorem hasOutLen_completed {w : BitVec 32} {out : List Byte} (h : out.length = outLen w) (f : Bool) (v : Verdict)
    (k : Cause) (p q : BitVec 3) : HasOutLen w ⟨responseWord true f v k p q, out⟩ := by
  obtain ⟨hok, -⟩ := responseWord_fields true f v k p q
  simp only [HasOutLen, hok, h]
  rfl

/-- The answer that rejecting a command adds has OK = 0 and no payload, whatever the word and the cause. -/
theorem hasOutLen_rejected {w : BitVec 32} {k : Cause} {before : List Response} {r : Response}
    (hr : before ++ [⟨0#16 ++ causeCode k ++ 0x02#8, []⟩] = before ++ [r]) : HasOutLen w r := by
  cases List.append_cancel_left hr
  obtain ⟨hok, -⟩ := responseWord_fields false true .none k 0 0
  rw [responseWord_rejected] at hok
  exact (if_pos hok).symm

/-- One instruction's answer, whatever the frame does with it. -/
theorem hasOutLen_runIn {cfg : Config} {i : Instr} {s : State} {r : Response}
    (hr : (runIn cfg i s).responses = s.responses ++ [r]) : HasOutLen i.word r := by
  rcases runIn_cases cfg i s with ⟨hc, -, e⟩ | ⟨-, -, e⟩ | ⟨-, -, e⟩ <;> rw [e] at hr
  · obtain ⟨-, hl, -⟩ := (check_eq_none cfg i.header s).1 hc
    rw [complete_eq_answered, answered_responses] at hr
    cases List.append_cancel_left hr
    exact hasOutLen_completed (bodyOf_out_length cfg s _ hl) _ _ _ _ _
  · exact hasOutLen_rejected hr
  · exact hasOutLen_rejected hr

/-- The answer to a word that is no instruction. -/
theorem hasOutLen_frameRejected {w : BitVec 32} {e : DecodeError} {s : State} {r : Response}
    (hr : (frameRejected w e s).responses = s.responses ++ [r]) : HasOutLen w r := by
  rcases frameRejected_cases w e s with ⟨-, e'⟩ | ⟨-, e'⟩ <;> rw [e'] at hr
  · exact hasOutLen_rejected hr
  · exact hasOutLen_rejected hr

/-- Settles O43: a delivered command is an instruction or a word that is none, and either answer has the table's length. -/
theorem outputPayloadLength : Obligations.OutputPayloadLength := by
  intro s t w payload rest r hdel hstep hr
  rcases step_delivered_cases hdel with ⟨i, rfl, e⟩ | ⟨_, e⟩
  · rw [hstep] at e; cases e
    exact hasOutLen_runIn hr
  · rw [hstep] at e; cases e
    exact hasOutLen_frameRejected hr

end Sys2Proof.Machine
end

section
/-! PROOF of O41: CLEAR and CLONE of existing slots on a running engine (spec/41_context.md R110, R114), and why repeating
the one, or aiming the other at its own source, changes nothing (spec/20_memory.md R47). -/

namespace Sys2Proof.Machine

/-- A completed command leaves the engine running. -/
theorem running_answered {s : State} (h : Running s) (c : Nat) (sl : Slot) (w : BitVec 32) (out : List Byte) :
    Running (answered s c sl w out) := by
  obtain ⟨hn, hf, hc⟩ := h
  exact ⟨List.length_set.trans hn, hf, hc⟩

/-- CLEAR of an existing slot completes and leaves EMPTY_SLOT there (R110). -/
theorem exec_clear {s : State} {ctx : BitVec 4} (hr : Running s) (hc : ctx.toNat < Config.hw.nCtx) :
    exec (.clear ctx) s = .next (answered s ctx.toNat Slot.empty (okWord .empty .none) []) :=
  exec_completes (i := .clear ctx) hr hc nofun rfl rfl rfl rfl rfl rfl

/-- CLONE between existing slots completes and leaves the source's content at the destination (R114). -/
theorem exec_clone {s : State} {dst : BitVec 4} {src : BitVec 8} (hr : Running s) (hd : dst.toNat < Config.hw.nCtx)
    (hs : src.toNat < Config.hw.nCtx) :
    exec (.clone dst src) s =
      .next (answered s dst.toNat (s.slotAt src.toNat)
        (okWord (s.slotAt src.toNat).phase (s.slotAt src.toNat).persona) []) :=
  exec_completes (i := .clone dst src) hr hd (by rintro _ _ ⟨⟩; exact hs) rfl rfl rfl rfl rfl rfl

/-- Settles O41: writing EMPTY_SLOT twice is writing it once, and a slot written with its own content stays. -/
theorem clearAndSelfCloneAreIdempotent : Obligations.ClearAndSelfCloneAreIdempotent := by
  intro s ctx hr hc
  have hsrc : (ctx.setWidth 8).toNat = ctx.toNat := BitVec.toNat_setWidth_of_le (by decide)
  refine ⟨⟨_, _, exec_clear hr hc, exec_clear (running_answered hr _ _ _ _) hc, ?_, rfl⟩,
    ⟨_, exec_clone hr hc (hsrc ▸ hc), ?_, rfl⟩⟩
  · rw [answered_slots, answered_slots, List.set_set]
  · rw [answered_slots, hsrc, set_slotAt]

end Sys2Proof.Machine
end

section
/-! PROOF of O1, O2, O3, O4 and O7: the encoding (spec/30_encoding.md). Encoding and decoding invert each other because
a header and its word do, and an instruction and its header and payload do. A word without a header faults. A row of the
opcode table fixes OP, RSVD and the fields that must be zero. -/

namespace Sys2Proof.Machine

/-! ### From an instruction to its word and back (R61 to R67, R77) -/

/-- The header of an instruction sets no field that must be zero (R66). -/
theorem reservedFieldSet_header (i : Instr) :
    i.header.op.reservedFieldSet i.header.len i.header.aux i.header.ctx = false := by
  cases i <;> rfl

/-- The word of an instruction decodes to its header, whatever the operands. -/
theorem ofWord_word (i : Instr) : Header.ofWord i.word = .ok i.header :=
  Header.ofWord_toWord i.header (reservedFieldSet_header i)

/-- The header and the payload of a well-formed instruction determine it. -/
theorem instr_header_payload {i : Instr} (h : i.wf = true) : i.header.instr i.payload = i := by
  cases i with
  | short ctx t key msg =>
    obtain ⟨hkey, -⟩ : key.length = 16 ∧ msg.length ≤ 255 := by simpa [Instr.wf] using h
    simp only [Instr.header, Instr.payload, Header.instr, List.take_left' hkey, List.drop_left' hkey]
  | _ => rfl

/-- `in_len` of a well-formed instruction's word counts its payload (R77). -/
theorem inLen_word {i : Instr} (h : i.wf = true) : inLen i.word = i.payload.length := by
  cases i with
  | nop => exact Laws.PayloadLength.nop h
  | query ctx => exact Laws.PayloadLength.query ctx h
  | clear ctx => exact Laws.PayloadLength.clear ctx h
  | clone dst src => exact Laws.PayloadLength.clone dst src h
  | initMac ctx len key => exact Laws.PayloadLength.initMac ctx len key h
  | initPrf ctx len key => exact Laws.PayloadLength.initPrf ctx len key h
  | seedPrng ctx len seed => exact Laws.PayloadLength.seedPrng ctx len seed h
  | absorb ctx bytes => exact Laws.PayloadLength.absorb ctx bytes h
  | finalMac ctx => exact Laws.PayloadLength.finalMac ctx h
  | verifyMac ctx len tag => exact Laws.PayloadLength.verifyMac ctx len tag h
  | finalPrf ctx => exact Laws.PayloadLength.finalPrf ctx h
  | read ctx n => exact Laws.PayloadLength.read ctx n h
  | feedEnd ctx => exact Laws.PayloadLength.feedEnd ctx h
  | generate ctx => exact Laws.PayloadLength.generate ctx h
  | short ctx t key msg => exact Laws.PayloadLength.short ctx t key msg h

/-- A word with a header decodes, with any payload, to the instruction of that header and payload. -/
theorem decode_of_ofWord {w : BitVec 32} {h : Header} (hw : Header.ofWord w = .ok h) (payload : List Byte) :
    decode w payload = .ok (h.instr payload) := by
  simp only [decode, hw]

/-- The word and the payload of a well-formed instruction decode to it. -/
theorem decode_word_payload {i : Instr} (h : i.wf = true) : decode i.word i.payload = .ok i := by
  rw [decode_of_ofWord (ofWord_word i), instr_header_payload h]

/-! ### The serialized form (20_memory.md R44) -/

/-- A word is its four bytes, most significant first. -/
theorem append_bytes (w : BitVec 32) :
    (w.extractLsb' 24 8 ++ w.extractLsb' 16 8 ++ w.extractLsb' 8 8 ++ w.extractLsb' 0 8 : BitVec 32) = w := by
  iterate 3 rw [BitVec.extractLsb'_append_extractLsb'_eq_extractLsb' (by decide)]
  exact BitVec.extractLsb'_eq_self

/-- A serialized word with the payload that `in_len` counts is read as what the port decodes, and the bytes after it are
left. -/
theorem decodeBytes_of_decode {w : BitVec 32} {payload : List Byte} {i : Instr} (hl : payload.length = inLen w)
    (hd : decode w payload = .ok i) (rest : List Byte) :
    decodeBytes (bytesBe32 w ++ payload ++ rest) = .ok (i, rest) := by
  simp only [bytesBe32, List.cons_append, List.nil_append, decodeBytes, append_bytes]
  rw [if_neg (by simp [hl]), List.take_left' hl, List.drop_left' hl, hd]

/-- Settles O1: `in_len` counts the payload, so the port and the serialized form read the same word and payload. -/
theorem decodingInvertsEncoding : Obligations.DecodingInvertsEncoding := fun _ h =>
  ⟨inLen_word h, decode_word_payload h, decodeBytes_of_decode (inLen_word h).symm (decode_word_payload h)⟩

/-! ### From a word to its instruction and back (R61 to R67, R77) -/

/-- Settles O2: what decodes is the instruction of the word's header, which has that header and that payload. -/
theorem encodingInvertsDecoding : Obligations.EncodingInvertsDecoding := by
  intro w payload i hl hd
  rcases decode_cases w payload with ⟨h, hw, hok⟩ | ⟨e, -, -, herr⟩
  · rw [hok] at hd; cases hd
    obtain ⟨rfl, hres⟩ := Header.of_ofWord hw
    obtain ⟨hwf, hheader, hpayload⟩ := header_instr h payload hres hl
    exact ⟨hwf, by rw [encode, Instr.word, hheader, hpayload]⟩
  · rw [herr] at hd; cases hd

/-! ### Words without a header (R66, R78) -/

/-- On an engine that is not faulted, a delivered word that steps 1 and 2 of CHECK reject faults with their cause
(60_exceptions.md R237, R238). -/
theorem step_of_ofWord_error {s : State} {w : BitVec 32} {payload : List Byte} {rest : List PortItem}
    {e : DecodeError} (hf : s.fault = false) (hdel : Delivers s w payload rest) (he : Header.ofWord w = .error e) :
    step s = .next (faulted { s with input := rest } w (decodeCause e)) := by
  have hd : decode w payload = .error e := by simp only [decode, he]
  rw [step_of_delivers hdel, runCommand_of_error hd]
  rcases frameRejected_cases w e { s with input := rest } with ⟨ht, -⟩ | ⟨-, e'⟩
  · cases hf.symm.trans ht
  · rw [e']

/-- The unassigned OP values are the eight ranges between the assigned ones (R78). -/
theorem unassigned_iff_ranges {op : Nat} (h : op < 256) :
    op ∉ assignedOps ↔
      0x04 ≤ op ∧ op ≤ 0x0F ∨ 0x13 ≤ op ∧ op ≤ 0x1F ∨ 0x21 ≤ op ∧ op ≤ 0x2F ∨
        0x32 ≤ op ∧ op ≤ 0x37 ∨ 0x39 ≤ op ∧ op ≤ 0x3F ∨ 0x41 ≤ op ∧ op ≤ 0x4F ∨
        0x52 ≤ op ∧ op ≤ 0x5F ∨ 0x61 ≤ op ∧ op ≤ 0xFF := by
  simp only [assignedOps, List.mem_cons, List.not_mem_nil, or_false]
  omega

/-- Settles O3: a word with an unassigned OP has no header, by step 1 of CHECK. -/
theorem unassignedOpcodesFault : Obligations.UnassignedOpcodesFault := by
  refine fun w => ⟨unassigned_iff_ranges (Nat.mod_lt _ (by decide)), fun s payload rest hop hf hdel => ?_⟩
  rcases ofWord_cases w with ⟨-, he⟩ | ⟨hop', -, -⟩ | ⟨hop', -, -⟩
  · exact step_of_ofWord_error hf hdel he
  · exact absurd hop' hop
  · exact absurd hop' hop

/-- Settles O4: a word with an assigned OP and a set field that must be zero has no header, by step 2 of CHECK. -/
theorem reservedFieldsFault : Obligations.ReservedFieldsFault := by
  intro w s payload rest hop hf hdel hset
  rcases ofWord_cases w with ⟨hop', -⟩ | ⟨-, -, he⟩ | ⟨-, hclear, -⟩
  · exact absurd hop hop'
  · exact step_of_ofWord_error hf hdel he
  · exact absurd hset hclear

/-! ### The rows of the opcode table (opcode_table.json) -/

/-- No two commands share an OP value (R67). -/
theorem code_injective : Function.Injective Opcode.code := by
  intro o o' h
  have hsome : some o = some o' := by rw [← ofCode?_code o, h, ofCode?_code o']
  exact Option.some.inj hsome

/-- The fields of a masked word are the masked fields. -/
theorem fields_and (w m : BitVec 32) :
    opField (w &&& m) = opField w &&& opField m ∧ lenField (w &&& m) = lenField w &&& lenField m ∧
      auxField (w &&& m) = auxField w &&& auxField m ∧ ctxField (w &&& m) = ctxField w &&& ctxField m ∧
      rsvdField (w &&& m) = rsvdField w &&& rsvdField m :=
  ⟨BitVec.extractLsb'_and, BitVec.extractLsb'_and, BitVec.extractLsb'_and, BitVec.extractLsb'_and,
    BitVec.extractLsb'_and⟩

/-- Every row fixes OP at its command's code, and RSVD at zero. -/
theorem row_fixes_op_rsvd (o : Opcode) :
    opField o.tableMask = BitVec.allOnes 8 ∧ opField o.tableMatch = o.code ∧
      rsvdField o.tableMask = BitVec.allOnes 4 ∧ rsvdField o.tableMatch = 0 := by
  cases o <;> decide

/-- Every row masks in the fields that must be zero for its command, so masking hides none of them. -/
theorem reservedFieldSet_and_tableMask (o : Opcode) (len aux : BitVec 8) (ctx : BitVec 4) :
    o.reservedFieldSet (len &&& lenField o.tableMask) (aux &&& auxField o.tableMask) (ctx &&& ctxField o.tableMask) =
      o.reservedFieldSet len aux ctx := by
  have h8 (x : BitVec 8) : x &&& 255#8 = x := BitVec.and_allOnes
  have h4 (x : BitVec 4) : x &&& 15#4 = x := BitVec.and_allOnes
  cases o <;> simp [Opcode.reservedFieldSet, Opcode.tableMask, lenField, auxField, ctxField, h8, h4]

/-- Every row's match value sets none of them. -/
theorem reservedFieldSet_tableMatch (o : Opcode) :
    o.reservedFieldSet (lenField o.tableMatch) (auxField o.tableMatch) (ctxField o.tableMatch) = false := by
  cases o <;> decide

section Row

variable {o : Opcode} {w : BitVec 32} (h : w &&& o.tableMask = o.tableMatch)
include h

/-- A word that matches a row has the row's OP. -/
theorem opField_of_row : opField w = o.code := by
  obtain ⟨hop, -, -, -, -⟩ := fields_and w o.tableMask
  obtain ⟨hmask, hmatch, -, -⟩ := row_fixes_op_rsvd o
  rw [← hmatch, ← h, hop, hmask, BitVec.and_allOnes]

/-- A word that matches a row has RSVD = 0. -/
theorem rsvdField_of_row : rsvdField w = 0 := by
  obtain ⟨-, -, -, -, hrsvd⟩ := fields_and w o.tableMask
  obtain ⟨-, -, hmask, hmatch⟩ := row_fixes_op_rsvd o
  rw [← hmatch, ← h, hrsvd, hmask, BitVec.and_allOnes]

/-- A word that matches a row sets no field that must be zero for the row's command. -/
theorem reservedFieldSet_of_row : o.reservedFieldSet (lenField w) (auxField w) (ctxField w) = false := by
  obtain ⟨-, hlen, haux, hctx, -⟩ := fields_and w o.tableMask
  rw [← reservedFieldSet_and_tableMask, ← hlen, ← haux, ← hctx, h, reservedFieldSet_tableMatch]

/-- A word that matches a row has a header with the row's opcode. -/
theorem ofWord_of_row : Header.ofWord w = .ok ⟨o, lenField w, auxField w, ctxField w⟩ := by
  have hword : Header.toWord ⟨o, lenField w, auxField w, ctxField w⟩ = w := by
    rw [Header.toWord, ← opField_of_row h, wordOfFields_fields w (rsvdField_of_row h)]
  have hheader := Header.ofWord_toWord ⟨o, lenField w, auxField w, ctxField w⟩ (reservedFieldSet_of_row h)
  rwa [hword] at hheader

end Row

/-- Settles O7: a row fixes OP, RSVD and the fields that must be zero, and no two rows have one OP. -/
theorem opcodeTableRows : Obligations.OpcodeTableRows := fun _ _ _ h =>
  ⟨⟨_, ofWord_of_row h, rfl⟩, fun h' => code_injective ((opField_of_row h').symm.trans (opField_of_row h))⟩

end Sys2Proof.Machine
end

section
/-! PROOF of O45, O46 and O47: the padding unit (spec/40_datapath.md R91, R94, R95). A block word is `be64` of a piece
of the padded block, and a byte behind a string shifts its `be64` up by 8. A message is absorbed as its full blocks and
the padded block of its remainder, and the message can be read back from them. -/

namespace Sys2Proof.Machine

/-! ### Big-endian words of longer byte strings (R10) -/

theorem be64_snoc (bytes : List Byte) (b : Byte) : be64 (bytes ++ [b]) = be64 bytes <<< 8 ||| b.setWidth 64 :=
  List.foldl_concat _ _ _ _

theorem be64_append_zeros (bytes : List Byte) (n : Nat) : be64 (bytes ++ zeros n) = be64 bytes <<< (8 * n) := by
  induction n with
  | zero => simp [zeros]
  | succ n ih =>
    have hz : zeros (n + 1) = zeros n ++ [0] := List.replicate_succ'
    rw [hz, ← List.append_assoc, be64_snoc, ih, Nat.mul_succ, BitVec.shiftLeft_add]
    simp

theorem be64_zeros (n : Nat) : be64 (zeros n) = 0 := by
  simpa [be64] using be64_append_zeros [] n

theorem drop_zeros (k n : Nat) : (zeros n).drop k = zeros (n - k) := List.drop_replicate

theorem take_zeros (k n : Nat) : (zeros n).take k = zeros (min k n) := List.take_replicate

/-! ### The padded block (R90, R91) -/

section PaddedBlock

variable {buffered : List Byte} {q : Nat}

theorem paddedBlock_length (h : buffered.length ≤ 31) : (paddedBlock buffered).length = 32 := by
  simp only [paddedBlock, List.length_append, List.length_singleton, zeros_length]
  omega

theorem getElem?_paddedBlock_length : (paddedBlock buffered)[buffered.length]? = some padMarker := by
  simp [paddedBlock]

/-- A block word below the marker's is the message word. -/
theorem wordAt_paddedBlock_below (hq : q < buffered.length / 8) :
    wordAt (paddedBlock buffered) q = wordAt buffered q := by
  have hl : 8 ≤ (buffered.drop (8 * q)).length := by rw [List.length_drop]; omega
  rw [wordAt, wordAt, paddedBlock, List.append_assoc, List.drop_append_of_le_length (by omega),
    List.take_append_of_le_length hl]

/-- The bytes of the marker's block word: the last `r mod 8` buffered bytes, the marker, zero fill. -/
theorem take_drop_paddedBlock_marker (hr : buffered.length ≤ 31) (hq : q = buffered.length / 8) :
    ((paddedBlock buffered).drop (8 * q)).take 8 =
      buffered.drop (8 * q) ++ [padMarker] ++ zeros (7 - buffered.length % 8) := by
  have hl : (buffered.drop (8 * q) ++ [padMarker]).length = buffered.length % 8 + 1 := by
    rw [List.length_append, List.length_drop, List.length_singleton]; omega
  rw [paddedBlock, List.append_assoc, List.drop_append_of_le_length (by omega), ← List.append_assoc, List.take_append,
    List.take_of_length_le (by omega), hl, take_zeros]
  congr 2
  omega

/-- The block word that holds the marker. -/
theorem wordAt_paddedBlock_marker (hr : buffered.length ≤ 31) (hq : q = buffered.length / 8) :
    wordAt (paddedBlock buffered) q =
      be64 (buffered.drop (8 * q)) <<< (64 - 8 * (buffered.length % 8)) |||
        (0x80 : Word) <<< (56 - 8 * (buffered.length % 8)) := by
  have hmarker : padMarker.setWidth 64 = (0x80 : Word) := rfl
  have hfill : 8 * (7 - buffered.length % 8) = 56 - 8 * (buffered.length % 8) := by omega
  have hbytes : 8 + (56 - 8 * (buffered.length % 8)) = 64 - 8 * (buffered.length % 8) := by omega
  rw [wordAt, take_drop_paddedBlock_marker hr hq, be64_append_zeros, be64_snoc, hmarker, hfill,
    BitVec.shiftLeft_or_distrib, ← BitVec.shiftLeft_add, hbytes]

/-- A block word above the marker's is zero. -/
theorem wordAt_paddedBlock_above (hq : buffered.length / 8 < q) : wordAt (paddedBlock buffered) q = 0 := by
  have hl : (buffered ++ [padMarker]).length ≤ 8 * q := by
    rw [List.length_append, List.length_singleton]; omega
  rw [wordAt, paddedBlock, List.drop_append, List.drop_of_length_le hl, List.nil_append, drop_zeros, take_zeros,
    be64_zeros]

end PaddedBlock

/-- Settles O45, word by word. -/
theorem paddingMarkerPosition : Obligations.PaddingMarkerPosition := fun _ _ hr _ =>
  ⟨paddedBlock_length hr, getElem?_paddedBlock_length, wordAt_paddedBlock_below, wordAt_paddedBlock_marker hr,
    wordAt_paddedBlock_above⟩

/-! ### Absorption of a message (R94) -/

/-- A slot with an empty, zero buffer holds the empty byte string. -/
theorem holds_nil (cfg : Config) {sl : Slot} (hlen : sl.bufLen = 0) (hbuf : sl.buf = Vector.replicate 32 0) :
    Holds cfg sl.s [] sl := by
  have h := holds_buffered cfg sl fun k _ => by simp [hbuf]
  have hnil : sl.buffered = [] := by simp [Slot.buffered, hlen]
  rwa [hnil] at h

theorem paddedBlocks_length (msg : List Byte) : (paddedBlocks msg).length = msg.length / 32 + 1 := by
  simp [paddedBlocks, fullBlocks]

/-- Settles O46: what the slot holds before PAD_FLUSH is the message. -/
theorem absorptionOfAMessage : Obligations.AbsorptionOfAMessage := by
  intro cfg sl msg hlen hbuf
  have hs : (padFlush cfg (appendAll cfg sl msg)).s = absorbMessage cfg.perm sl.s msg :=
    ((holds_nil cfg hlen hbuf).appendAll msg).padFlush_s
  refine ⟨?_, paddedBlocks_length msg⟩
  rw [hs, absorbMessage, paddedBlocks, fullBlocks, List.map_map]
  rfl

/-! ### Padding is injective (R95) -/

/-- The buffered bytes, read back from a padded block: the zero fill and the marker taken off its end. -/
def unpad (block : List Byte) : List Byte := (block.rdropWhile (· == 0)).dropLast

theorem rdropWhile_append_zeros (bytes : List Byte) (n : Nat) :
    (bytes ++ zeros n).rdropWhile (· == 0) = bytes.rdropWhile (· == 0) := by
  simp [List.rdropWhile, zeros]

theorem unpad_paddedBlock (buffered : List Byte) : unpad (paddedBlock buffered) = buffered := by
  have hmarker : (buffered ++ [padMarker]).rdropWhile (· == 0) = buffered ++ [padMarker] :=
    List.rdropWhile_concat_neg _ _ _ (by decide)
  rw [unpad, paddedBlock, rdropWhile_append_zeros, hmarker, List.dropLast_concat]

theorem paddedBlock_injective : Function.Injective paddedBlock :=
  Function.LeftInverse.injective unpad_paddedBlock

/-- A message is absorbed as its full blocks and the padded block of its remainder. -/
theorem paddedBlocks_eq (msg : List Byte) :
    paddedBlocks msg = (fullBlocks msg).map (fun b => (b, 0)) ++ [(paddedBlock (remainder msg), 1)] := by
  have hl : msg.length - 32 * (msg.length / 32) = (remainder msg).length := by rw [remainder, List.length_drop]
  rw [paddedBlocks, hl]
  rfl

/-- The full blocks and the remainder of a message are its bytes, in order. -/
theorem flatten_fullBlocks_append_remainder (msg : List Byte) : (fullBlocks msg).flatten ++ remainder msg = msg := by
  induction msg using List.reverseRecOn with
  | nil => rfl
  | append_singleton msg b ih =>
    by_cases h : msg.length % 32 + 1 < 32
    · rw [fullBlocks_snoc_partial msg b h, remainder_snoc_partial msg b h, ← List.append_assoc, ih]
    · have h32 : msg.length % 32 + 1 = 32 := by omega
      rw [fullBlocks_snoc_full msg b h32, remainder_snoc_full msg b h32, List.flatten_concat, List.append_nil,
        ← List.append_assoc, ih]

theorem paddedBlocks_injective : Function.Injective paddedBlocks := by
  intro m m' h
  rw [paddedBlocks_eq, paddedBlocks_eq] at h
  obtain ⟨hfull, hlast⟩ := List.append_inj' h rfl
  have hblocks : fullBlocks m = fullBlocks m' :=
    List.map_injective_iff.2 (fun _ _ hb => congrArg Prod.fst hb) hfull
  have hrem : remainder m = remainder m' := paddedBlock_injective (by simpa using hlast)
  rw [← flatten_fullBlocks_append_remainder m, hblocks, hrem, flatten_fullBlocks_append_remainder]

/-- Settles O47: the blocks give back the message. -/
theorem paddingIsInjective : Obligations.PaddingIsInjective := fun _ _ hne h => hne (paddedBlocks_injective h)

end Sys2Proof.Machine
end

section
/-! PROOF of O28 to O31: the context-management commands (spec/41_context.md R101, R106, R110, R114). NOP and QUERY run
on a faulted engine too and leave their slot as it is; CLEAR and CLONE of existing slots complete on a running engine, and
CHECK refuses a CLONE from a number that is no slot (60_exceptions.md R238 step 3). -/

namespace Sys2Proof.Machine

/-! ### Commands that run while FAULT = 1 (R240) -/

/-- A completed command that leaves its slot as it is changes nothing but the answers. -/
theorem answered_slotAt (s : State) (c : Nat) (w : BitVec 32) (out : List Byte) :
    answered s c (s.slotAt c) w out = { s with responses := s.responses ++ [⟨w, out⟩] } := by
  rw [answered, set_slotAt]

/-- NOP and QUERY of an existing slot pass CHECK: they have no length to test, and every phase admits them. -/
theorem check_of_runsWhileFaulted {cfg : Config} {h : Header} (hrun : runsWhileFaulted h.op = true)
    (hc : h.ctx.toNat < cfg.nCtx) (s : State) : check cfg h s = .none := by
  obtain ⟨op, len, aux, ctx⟩ := h
  obtain rfl | rfl : op = .nop ∨ op = .query := by simpa [runsWhileFaulted] using hrun
  all_goals exact (check_eq_none _ _ _).2 ⟨by simpa [slotsExist] using hc, rfl, rfl⟩

/-- Such a command, whose body leaves the slot as it is, only answers: FAULT and CAUSE as held, PHASE and PERSONA of the
slot, and the body's output. -/
theorem exec_of_runsWhileFaulted {i : Instr} {s : State} {out : List Byte}
    (hrun : runsWhileFaulted i.header.op = true) (hc : slotOf i < Config.hw.nCtx)
    (hb : bodyOf Config.hw i s (s.slotAt (slotOf i)) = ⟨s.slotAt (slotOf i), out, .none⟩) :
    exec i s = .next { s with
      responses := s.responses ++
        [⟨heldWord s (s.slotAt (slotOf i)).phase (s.slotAt (slotOf i)).persona, out⟩] } := by
  rw [slotOf] at hc hb ⊢
  rw [exec_eq_frame, frame_of_runs (fun _ => hrun) (check_of_runsWhileFaulted hrun hc s), complete_eq_answered, hb,
    responseWord_held, answered_slotAt]

/-- Settles O28: NOP addresses slot 0, which every configuration has. -/
theorem nopOnlyAnswers : Obligations.NopOnlyAnswers := fun _ _ =>
  exec_of_runsWhileFaulted (i := .nop) rfl Config.hw.nCtx_pos rfl

/-- Settles O29: the output of QUERY's body is the twelve bytes. -/
theorem queryReportsStatus : Obligations.QueryReportsStatus := by
  rintro s ctx sl - hc rfl
  exact exec_of_runsWhileFaulted (i := .query ctx) rfl hc rfl

/-! ### CLEAR and CLONE -/

/-- Settles O30: `Slot.empty` and its response word, written out. -/
theorem clearEmptiesTheSlot : Obligations.ClearEmptiesTheSlot := fun _ _ hr hc => exec_clear hr hc

/-- A command addressed to a slot, or a CLONE from one, that does not exist faults BAD_SLOT on a running engine (R238
step 3). -/
theorem exec_slot_fault {i : Instr} {s : State} (hf : s.fault = false) (hs : slotsExist Config.hw i.header = false) :
    exec i s = .next (faulted s i.word .badSlot) := by
  have hc : check Config.hw i.header s = .badSlot := if_pos hs
  rw [exec_eq_frame, frame_of_violation hf (by simp [hc]), hc, Instr.word]

/-- Settles O31, by whether the source exists. -/
theorem cloneCopiesTheSlot : Obligations.CloneCopiesTheSlot := by
  intro s dst src hr hd
  obtain ⟨-, hf, -⟩ := id hr
  refine ⟨exec_clone hr hd, fun hs => exec_slot_fault hf ?_⟩
  simp [slotsExist, Instr.header, Nat.not_lt.2 hs]

end Sys2Proof.Machine
end

section
/-! PROOF of O56: a slot whose commands are taken out of a run (spec/41_context.md R115). The engines that run with and
without them differ in that slot, and in what they have answered, at most; a command to another slot, which reads neither
(spec/10_state.md R17), keeps them so and answers alike. -/

namespace Sys2Proof.Machine

/-! ### The answer given last -/

section LastAnswer

variable (s : State) (c : Nat) (sl : Slot) (w : BitVec 32) (k : Cause) (out : List Byte)

@[simp] theorem lastResponse_answered : lastResponse (answered s c sl w out) = some ⟨w, out⟩ :=
  List.getLast?_concat
@[simp] theorem lastResponse_faulted :
    lastResponse (faulted s w k) = some ⟨0#16 ++ causeCode k ++ 0x02#8, []⟩ := List.getLast?_concat
@[simp] theorem lastResponse_rejected :
    lastResponse (rejected s) = some ⟨0#16 ++ causeCode s.cause ++ 0x02#8, []⟩ := List.getLast?_concat

end LastAnswer

/-! ### Engines that differ in one slot -/

/-- The engines of `u` and `v` differ in slot `gone` and in what they have answered, at most. -/
structure AlikeBut (gone : Nat) (u v : State) : Prop where
  slots : ∀ c, c ≠ gone → u.slotAt c = v.slotAt c
  count : u.slots.length = v.slots.length
  fault : u.fault = v.fault
  cause : u.cause = v.cause
  fcmd : u.fcmd = v.fcmd

variable {cfg : Config} {gone : Nat} {u v : State} {i : Instr}

theorem AlikeBut.refl (gone : Nat) (s : State) : AlikeBut gone s s := ⟨fun _ _ => rfl, rfl, rfl, rfl, rfl⟩

/-- One slot written alike, and one answer more. -/
theorem AlikeBut.after_answer (h : AlikeBut gone u v) (c : Nat) (sl : Slot) (w : BitVec 32) (out : List Byte) :
    AlikeBut gone (answered u c sl w out) (answered v c sl w out) := by
  obtain ⟨hs, hn, hf, hc, hw⟩ := h
  refine ⟨fun k hk => ?_, by simp [hn], hf, hc, hw⟩
  by_cases hkc : k = c
  · rw [hkc, slotAt_answered, slotAt_answered, hn]
  · calc (answered u c sl w out).slotAt k = u.slotAt k := slotAt_setSlot_of_ne hkc sl
      _ = v.slotAt k := hs k hk
      _ = (answered v c sl w out).slotAt k := (slotAt_setSlot_of_ne hkc sl).symm

/-- A command to another slot, which is no CLONE out of `gone`, does the same to both engines and is answered alike. -/
theorem AlikeBut.after_command (h : AlikeBut gone u v) (hi : slotOf i ≠ gone)
    (hsrc : ∀ d a, i = .clone d a → a.toNat ≠ gone) :
    AlikeBut gone (runIn cfg i u) (runIn cfg i v) ∧
      lastResponse (runIn cfg i u) = lastResponse (runIn cfg i v) := by
  obtain ⟨hs, hn, hf, hcause, hw⟩ := id h
  have hsl : u.slotAt i.header.ctx.toNat = v.slotAt i.header.ctx.toNat := hs _ hi
  have hc : check cfg i.header u = check cfg i.header v :=
    check_congr rfl rfl rfl (congrArg Slot.phase hsl) (congrArg Slot.persona hsl)
  have hb : bodyOf cfg i u = bodyOf cfg i v := bodyOf_congr cfg hw fun d a e => hs _ (hsrc d a e)
  rcases runIn_lockstep rfl hc hf with ⟨-, e₁, e₂⟩ | ⟨e₁, e₂⟩ | ⟨e₁, e₂⟩ <;> rw [e₁, e₂]
  · simp only [complete_eq_answered, hsl, hb, hf, hcause, lastResponse_answered, and_true]
    exact h.after_answer _ _ _ _
  · exact ⟨⟨hs, hn, hf, hcause, hw⟩, by simp only [lastResponse_rejected, hcause]⟩
  · exact ⟨⟨hs, hn, rfl, rfl, rfl⟩, by simp only [lastResponse_faulted]⟩

/-- A command to `gone` that raises no fault may be given to one engine alone. -/
theorem AlikeBut.after_command_to_gone (h : AlikeBut gone u v) (hi : slotOf i = gone)
    (hf : (runIn cfg i v).fault = false) : AlikeBut gone u (runIn cfg i v) := by
  have hfv : (runIn cfg i v).fault = v.fault := hf.trans (fault_of_runIn hf).symm
  obtain ⟨hcause, hw⟩ := faultRecord_runIn hfv
  refine ⟨fun c hc => ?_, ?_, h.fault.trans hfv.symm, h.cause.trans hcause.symm, h.fcmd.trans hw.symm⟩
  · rw [slotAt_runIn_of_ne (hi ▸ hc)]
    exact h.slots c hc
  · rw [slots_length_runIn]
    exact h.count

/-! ### Runs -/

/-- No CLONE of the list copies out of `gone` into another slot. -/
def NoCopyOut (gone : Nat) (is : List Instr) : Prop :=
  ∀ d a, Instr.clone d a ∈ is → a.toNat = gone → d.toNat = gone

/-- A command of such a list to another slot reads `gone` no more than it writes it. -/
theorem NoCopyOut.source_ne {is : List Instr} (h : NoCopyOut gone is) (hmem : i ∈ is) (hi : slotOf i ≠ gone)
    (d : BitVec 4) (a : BitVec 8) (e : i = .clone d a) : a.toNat ≠ gone := by
  subst e
  exact fun ha => hi (h d a hmem ha)

/-- A run without a fault, and the same run without its commands to `gone`. -/
theorem AlikeBut.after_run {is : List Instr} (his : NoCopyOut gone is) (h : AlikeBut gone u v)
    (hf : (runAllIn cfg is v).fault = false) :
    AlikeBut gone (runAllIn cfg (is.filter fun j => slotOf j ≠ gone) u) (runAllIn cfg is v) := by
  induction is generalizing u v with
  | nil => exact h
  | cons j js ih =>
    have hjs : NoCopyOut gone js := fun d a hmem => his d a (List.mem_cons_of_mem _ hmem)
    by_cases hj : slotOf j = gone
    · rw [List.filter_cons_of_neg (by simpa using hj)]
      exact ih hjs (h.after_command_to_gone hj (fault_of_runAllIn hf)) hf
    · rw [List.filter_cons_of_pos (by simpa using hj)]
      obtain ⟨h', -⟩ := h.after_command hj (his.source_ne List.mem_cons_self hj)
      exact ih hjs h' hf

/-- Settles O56: the run with the commands to `gone` and the one without, then the command compared. -/
theorem clonesDoNotAffectEachOther : Obligations.ClonesDoNotAffectEachOther := by
  rintro cfg s t dst src - - - - - - gone later kept i - hcl hf rfl hi
  have hlater : NoCopyOut gone later := fun d a hmem => hcl d a (List.mem_append_left _ hmem)
  have h := (AlikeBut.refl gone t).after_run hlater hf
  obtain ⟨h', hlast⟩ := h.after_command (cfg := cfg) hi (NoCopyOut.source_ne hcl (by simp) hi)
  rw [runAllIn_append, runAllIn_append]
  exact ⟨h.fault.trans hf, h'.fault, h'.cause, h'.slots, hlast⟩

end Sys2Proof.Machine
end

section
/-! PROOF of O33 and O48: ABSORB (spec/42_absorb.md R121, R122, R126). It completes wherever its phase is admitted, what it
appends is in closed form by `Holds`, and APPEND does not see the phase, so a run of ABSORBs is one `appendAll` of all its
bytes. -/

namespace Sys2Proof.Machine

/-! ### One ABSORB -/

/-- The pairs that admit ABSORB (60_exceptions.md R239). -/
theorem admits_absorb_of_mem {sl : Slot}
    (h : (sl.phase, sl.persona) ∈
      [(Phase.absorb, Persona.mac), (.absorb, .prf), (.prngReady, .prng), (.prngFeed, .prng)]) :
    admits .absorb sl.phase sl.persona = true := by
  rw [admits_eq]
  exact decide_eq_true h

/-- A slot that has taken one ABSORB admits the next. -/
theorem admits_absorb_feedPhase {p : Phase} {q : Persona} (h : admits .absorb p q = true) :
    admits .absorb (feedPhase p) q = true := by
  rcases admits_absorb.1 h with ⟨rfl, hq⟩ | ⟨rfl | rfl, rfl⟩
  · exact h
  · rfl
  · rfl

/-- ABSORB takes a PRNG slot to PRNG_FEED and leaves a MAC or PRF slot in ABSORB (R121). -/
theorem feedPhase_of_admits_absorb {p : Phase} {q : Persona} (h : admits .absorb p q = true) :
    feedPhase p = if q = .prng then .prngFeed else .absorb := by
  rcases admits_absorb.1 h with ⟨rfl, rfl | rfl⟩ | ⟨rfl | rfl, rfl⟩ <;> rfl

/-- ABSORB completes in a slot that admits it, and leaves there what its body gives. -/
theorem exec_absorb {s : State} {ctx : BitVec 4} {sl : Slot} (hr : Running s) (hc : ctx.toNat < Config.hw.nCtx)
    (hsl : s.slotAt ctx.toNat = sl) (ha : admits .absorb sl.phase sl.persona = true) (bytes : List Byte) :
    exec (.absorb ctx bytes) s =
      .next (answered s ctx.toNat (absorbBody Config.hw bytes sl).slot
        (okWord (absorbBody Config.hw bytes sl).slot.phase (absorbBody Config.hw bytes sl).slot.persona) []) :=
  exec_completes (i := .absorb ctx bytes) hr hc nofun rfl hsl ha rfl rfl rfl

theorem fullBlocks_length (msg : List Byte) : (fullBlocks msg).length = msg.length / 32 := by
  simp [fullBlocks]

/-- Settles O33: a slot with zeros behind its buffered bytes holds these (R28), and after the APPENDs these and the new
ones. -/
theorem absorbAppendsTheBytes : Obligations.AbsorbAppendsTheBytes := by
  intro s ctx bytes sl hr hc hsl hz hmem
  have ha := admits_absorb_of_mem hmem
  have hl : (sl.buffered ++ bytes).length = sl.bufLen.val + bytes.length := by simp [Slot.buffered]
  obtain ⟨hwords, hbuffer, hcount⟩ := (holds_buffered Config.hw sl hz).appendAll bytes
  obtain ⟨hobuf, hsqPos, -, hpersona⟩ := appendAll_frame Config.hw sl bytes
  exact ⟨_, exec_absorb hr hc hsl ha bytes, hwords, hl ▸ fullBlocks_length _, hl ▸ hcount, hcount ▸ hbuffer, hobuf,
    hsqPos, hpersona, feedPhase_of_admits_absorb ha⟩

/-! ### Runs of ABSORBs -/

/-- `exec` always answers a next state, so a run of commands reaches its end. -/
theorem execAll_eq_runAllIn (is : List Instr) (s : State) : execAll is s = some (runAllIn Config.hw is s) := by
  induction is generalizing s with
  | nil => rfl
  | cons i is ih => simp only [execAll, exec_eq_runIn, runAllIn_cons, ih]

/-- APPEND does not see the phase (R126). -/
theorem append_with_phase (cfg : Config) (sl : Slot) (p : Phase) (b : Byte) :
    append cfg { sl with phase := p } b = { append cfg sl b with phase := p } := by
  unfold append
  split <;> rfl

theorem appendAll_with_phase (cfg : Config) (sl : Slot) (p : Phase) (bytes : List Byte) :
    appendAll cfg { sl with phase := p } bytes = { appendAll cfg sl bytes with phase := p } := by
  induction bytes generalizing sl with
  | nil => rfl
  | cons b bs ih =>
    calc appendAll cfg (append cfg { sl with phase := p } b) bs
      _ = appendAll cfg { append cfg sl b with phase := p } bs := by rw [append_with_phase]
      _ = { appendAll cfg (append cfg sl b) bs with phase := p } := ih _

/-- A run of ABSORBs in an admitting slot leaves the engine running, and the slot admitting: but for the phase it is the
slot after APPEND of all the bytes. -/
theorem runAllIn_absorb {s : State} {ctx : BitVec 4} {sl : Slot} (hr : Running s) (hc : ctx.toNat < Config.hw.nCtx)
    (hsl : s.slotAt ctx.toNat = sl) (ha : admits .absorb sl.phase sl.persona = true) (pieces : List (List Byte)) :
    Running (runAllIn Config.hw (pieces.map (Instr.absorb ctx)) s) ∧
      ∃ p, admits .absorb p sl.persona = true ∧
        (runAllIn Config.hw (pieces.map (Instr.absorb ctx)) s).slotAt ctx.toNat =
          { appendAll Config.hw sl pieces.flatten with phase := p } := by
  induction pieces generalizing s sl with
  | nil => exact ⟨hr, _, ha, hsl⟩
  | cons bytes pieces ih =>
    obtain ⟨hn, -, -⟩ := id hr
    obtain ⟨-, -, -, hq⟩ := appendAll_frame Config.hw sl bytes
    have ha' : admits .absorb (feedPhase sl.phase) (appendAll Config.hw sl bytes).persona = true :=
      hq ▸ admits_absorb_feedPhase ha
    rw [List.map_cons, runAllIn_cons, ← eq_runIn_of_exec (exec_absorb hr hc hsl ha bytes)]
    obtain ⟨hr', p, hp, h⟩ := ih (sl := (absorbBody Config.hw bytes sl).slot) (running_answered hr _ _ _ _)
      ((slotAt_answered ..).trans (if_pos (hc.trans_eq hn.symm))) ha'
    refine ⟨hr', p, hq ▸ hp, h.trans ?_⟩
    rw [absorbBody, appendAll_with_phase, List.flatten_cons, appendAll_append]

/-- Settles O48: both splits leave the slot after APPEND of the same bytes. -/
theorem absorbIsSplitInvariant : Obligations.AbsorbIsSplitInvariant := by
  intro s ctx pieces pieces' hr hc hmem _ hflat
  have ha := admits_absorb_of_mem hmem
  obtain ⟨⟨-, hf, -⟩, p, -, h⟩ := runAllIn_absorb hr hc rfl ha pieces
  obtain ⟨⟨-, hf', -⟩, p', -, h'⟩ := runAllIn_absorb hr hc rfl ha pieces'
  refine ⟨_, _, execAll_eq_runAllIn _ s, execAll_eq_runAllIn _ s, hf, hf', ?_⟩
  rw [h, h', hflat]
  exact ⟨rfl, rfl, rfl⟩

end Sys2Proof.Machine
end

section
/-! PROOF of O32, O34, O35, O50 and O51: the MAC persona (spec/43_mac.md R141, R144, R147, R148), and with INIT_MAC the
other two initializations (spec/44_prf.md R155, spec/45_prng.md R170). A fresh context holds no byte of a message,
ABSORBs make it hold their bytes in whatever pieces (`Holds`), and PAD_FLUSH of a slot that holds a message completes it.
So the tag that FINAL_MAC returns and VERIFY_MAC compares with is `MAC(K, M)`. -/

namespace Sys2Proof.Machine

/-! ### The three initializations -/

section Init

variable {s : State} {ctx : BitVec 4} (hr : Running s) (hc : ctx.toNat < Config.hw.nCtx) (key : List Byte)
include hr hc

/-- INIT_MAC with a 16-byte key completes, whatever the slot holds (R141, R142). -/
theorem exec_initMac :
    exec (.initMac ctx 16 key) s =
      .next (answered s ctx.toNat (startContext Config.hw .mac .absorb .mac key (s.slotAt ctx.toNat))
        (okWord .absorb .mac) []) :=
  exec_completes (i := .initMac ctx 16 key) hr hc nofun rfl rfl rfl rfl rfl rfl

/-- INIT_PRF with a 16-byte key completes, whatever the slot holds (R155). -/
theorem exec_initPrf :
    exec (.initPrf ctx 16 key) s =
      .next (answered s ctx.toNat (startContext Config.hw .prf .absorb .prf key (s.slotAt ctx.toNat))
        (okWord .absorb .prf) []) :=
  exec_completes (i := .initPrf ctx 16 key) hr hc nofun rfl rfl rfl rfl rfl rfl

/-- SEED_PRNG with a 16-byte seed completes, whatever the slot holds (R170). -/
theorem exec_seedPrng :
    exec (.seedPrng ctx 16 key) s =
      .next (answered s ctx.toNat (startContext Config.hw .prng .prngReady .prng key (s.slotAt ctx.toNat))
        (okWord .prngReady .prng) []) :=
  exec_completes (i := .seedPrng ctx 16 key) hr hc nofun rfl rfl rfl rfl rfl rfl

end Init

/-- Settles O32: `startContext` keeps nothing of the slot, and another LEN fails step 4 of CHECK. -/
theorem initStartsAFreshContext : Obligations.InitStartsAFreshContext := by
  intro s ctx len key hr hc
  constructor
  · rintro rfl
    exact ⟨exec_initMac hr hc key, exec_initPrf hr hc key, exec_seedPrng hr hc key⟩
  · intro hlen
    exact ⟨exec_length_fault (i := .initMac ctx len key) hr hc nofun (if_neg hlen) nofun,
      exec_length_fault (i := .initPrf ctx len key) hr hc nofun (if_neg hlen) nofun,
      exec_length_fault (i := .seedPrng ctx len key) hr hc nofun (if_neg hlen) nofun⟩

/-! ### FINAL_MAC and VERIFY_MAC -/

/-- The padded block of a slot, its fill counted by BUFLEN (R90). -/
theorem paddedBlock_buffered (sl : Slot) :
    paddedBlock sl.buffered =
      sl.buf.toList.take sl.bufLen.val ++ [0x80] ++ List.replicate (31 - sl.bufLen.val) 0 := by
  have hl : sl.buffered.length = sl.bufLen.val := by simp [Slot.buffered]
  rw [paddedBlock, hl]
  rfl

/-- The tag of a MAC context: the output bytes of the state after its padded block (R144). -/
theorem macTag_eq (cfg : Config) (sl : Slot) :
    macTag cfg sl = outputBlock (cfg.perm (xorBlock sl.s
      (sl.buf.toList.take sl.bufLen.val ++ [0x80] ++ List.replicate (31 - sl.bufLen.val) 0) 1)) := by
  rw [macTag, extract_toList, padFlush_s, paddedBlock_buffered]
  rfl

/-- VERIFY_MAC's response word shows VPASS for the tag itself and VFAIL for any other (R147). -/
theorem responseWord_tagVerdict {tag expected : List Byte} (h : tag.length = expected.length) :
    responseWord true false (tagVerdict tag expected) .none (phaseCode .done) (personaCode .mac) =
      if expected = tag then 0x00130005 else 0x00130009 := by
  rw [tagVerdict_eq tag expected h]
  by_cases heq : expected = tag
  · rw [if_pos heq, if_pos heq.symm]
    rfl
  · rw [if_neg heq, if_neg (Ne.symm heq)]
    rfl

section Finish

variable {s : State} {ctx : BitVec 4} {sl : Slot} (hr : Running s) (hc : ctx.toNat < Config.hw.nCtx)
  (hsl : s.slotAt ctx.toNat = sl) (hp : sl.phase = .absorb) (hq : sl.persona = .mac)
include hr hc hsl hp hq

/-- FINAL_MAC of a MAC context returns its tag and consumes it (R144). -/
theorem exec_finalMac :
    exec (.finalMac ctx) s =
      .next (answered s ctx.toNat (consumeMac Config.hw sl) (okWord .done .mac) (macTag Config.hw sl)) :=
  exec_completes (i := .finalMac ctx) hr hc nofun rfl hsl (admits_finalMac.2 ⟨hp, hq⟩) rfl rfl
    (congrArg (okWord .done) hq)

/-- VERIFY_MAC of a MAC context tells whether the expected bytes are its tag, and consumes it (R147). -/
theorem exec_verifyMac {tag : List Byte} (ht : tag.length = 16) :
    exec (.verifyMac ctx 16 tag) s =
      .next (answered s ctx.toNat (consumeMac Config.hw sl)
        (if tag = macTag Config.hw sl then 0x00130005 else 0x00130009) []) := by
  subst hsl
  have hcheck : check Config.hw (Instr.verifyMac ctx 16 tag).header s = .none :=
    (check_eq_none _ _ _).2 ⟨slotsExist_of hc nofun, rfl, admits_finalMac.2 ⟨hp, hq⟩⟩
  rw [exec_of_check hr hcheck, ← responseWord_tagVerdict ((macTag_length _ _).trans ht.symm), ← hq]
  rfl

end Finish

/-- Settles O34: the consumed context and the tag, written out. -/
theorem finalMacReturnsTheTag : Obligations.FinalMacReturnsTheTag := by
  intro s ctx sl hr hc hsl hp hq
  rw [exec_finalMac hr hc hsl hp hq, consumeMac_eq, macTag_eq, hq]
  rfl

/-- Settles O35: the same, and another LEN fails step 4 of CHECK before the phase is looked at. -/
theorem verifyMacComparesTheTag : Obligations.VerifyMacComparesTheTag := by
  intro s ctx len tag sl hr hc hsl hp hq ht
  constructor
  · rintro rfl
    rw [exec_verifyMac hr hc hsl hp hq ht, consumeMac_eq, macTag_eq, hq]
    rfl
  · exact fun hlen => exec_length_fault (i := .verifyMac ctx len tag) hr hc nofun (if_neg hlen) nofun

/-! ### A message in pieces -/

/-- ABSORBs into an admitting slot with an empty buffer leave the engine running and the slot holding the bytes of all
pieces; it admits more, and keeps its persona. -/
theorem runAllIn_absorb_holds {s : State} {ctx : BitVec 4} {sl : Slot} (hr : Running s)
    (hc : ctx.toNat < Config.hw.nCtx) (hsl : s.slotAt ctx.toNat = sl) (ha : admits .absorb sl.phase sl.persona = true)
    (hlen : sl.bufLen = 0) (hbuf : sl.buf = Vector.replicate 32 0) (pieces : List (List Byte)) :
    Running (runAllIn Config.hw (pieces.map (Instr.absorb ctx)) s) ∧
      ∃ sl', (runAllIn Config.hw (pieces.map (Instr.absorb ctx)) s).slotAt ctx.toNat = sl' ∧
        Holds Config.hw sl.s pieces.flatten sl' ∧ admits .absorb sl'.phase sl'.persona = true ∧
        sl'.persona = sl.persona := by
  obtain ⟨hr', p, hp, h⟩ := runAllIn_absorb hr hc hsl ha pieces
  obtain ⟨hwords, hbuffer, hcount⟩ := (holds_nil Config.hw hlen hbuf).appendAll pieces.flatten
  obtain ⟨-, -, -, hq⟩ := appendAll_frame Config.hw sl pieces.flatten
  exact ⟨hr', _, h, ⟨hwords, hbuffer, hcount⟩, hq ▸ hp, hq⟩

/-- INIT_MAC and ABSORBs leave the engine running and a MAC context whose tag is `MAC(K, M)` (R148). -/
theorem runAllIn_initMac_absorb {s : State} {ctx : BitVec 4} (hr : Running s) (hc : ctx.toNat < Config.hw.nCtx)
    (key : List Byte) (pieces : List (List Byte)) :
    Running (runAllIn Config.hw (.initMac ctx 16 key :: pieces.map (Instr.absorb ctx)) s) ∧
      ∃ sl, (runAllIn Config.hw (.initMac ctx 16 key :: pieces.map (Instr.absorb ctx)) s).slotAt ctx.toNat = sl ∧
        sl.phase = .absorb ∧ sl.persona = .mac ∧ macTag Config.hw sl = macOf Config.hw key pieces.flatten := by
  obtain ⟨hn, -, -⟩ := id hr
  rw [runAllIn_cons, ← eq_runIn_of_exec (exec_initMac hr hc key)]
  obtain ⟨hr', sl, hsl, hholds, ha, hq⟩ := runAllIn_absorb_holds (running_answered hr _ _ _ _) hc
    (sl := startContext Config.hw .mac .absorb .mac key (s.slotAt ctx.toNat))
    ((slotAt_answered ..).trans (if_pos (hc.trans_eq hn.symm))) rfl rfl rfl pieces
  have hp : sl.phase = .absorb := by
    rcases admits_absorb.1 ha with ⟨hp, -⟩ | ⟨-, hprng⟩
    · exact hp
    · cases hq.symm.trans hprng
  exact ⟨hr', sl, hsl, hp, hq, congrArg outputBlock hholds.padFlush_s⟩

/-- Settles O50: FINAL_MAC ends such a run with the tag, and every command of it addresses the one slot. -/
theorem macDependsOnKeyAndMessageOnly : Obligations.MacDependsOnKeyAndMessageOnly := by
  intro s ctx key pieces hr hc _ _
  obtain ⟨hr', sl, hsl, hp, hq, htag⟩ := runAllIn_initMac_absorb hr hc key pieces
  refine ⟨_, execAll_eq_runAllIn _ s, ?_, fun c hne => slotAt_runAllIn_of_ne ?_ s⟩
  · rw [List.singleton_append, runAllIn_append, runAllIn_cons, runAllIn_nil,
      ← eq_runIn_of_exec (exec_finalMac hr' hc hsl hp hq), lastResponse_answered, htag]
    rfl
  · intro i hi
    simp only [List.mem_append, List.mem_singleton, List.mem_map] at hi
    rcases hi with (rfl | ⟨_, -, rfl⟩) | rfl <;> exact hne

/-- Settles O51: VERIFY_MAC ends such a run with VPASS for the tag, and with the other word for any other. -/
theorem verifyAcceptsExactlyTheMac : Obligations.VerifyAcceptsExactlyTheMac := by
  intro s ctx key tag pieces hr hc _ ht _
  obtain ⟨hr', sl, hsl, hp, hq, htag⟩ := runAllIn_initMac_absorb hr hc key pieces
  obtain ⟨-, hf, -⟩ := id hr'
  refine ⟨_, execAll_eq_runAllIn _ s, ?_⟩
  rw [List.singleton_append, runAllIn_append, runAllIn_cons, runAllIn_nil,
    ← eq_runIn_of_exec (exec_verifyMac hr' hc hsl hp hq ht), lastResponse_answered, htag]
  refine ⟨hf, ?_⟩
  by_cases heq : tag = macOf Config.hw key pieces.flatten <;> simp [heq]

end Sys2Proof.Machine
end

section
/-! PROOF of O36, O37, O49 and O52: the PRF persona (spec/44_prf.md R155, R158, R161 to R166). READ first empties OBUF and
then delivers the stream of S (`Delivered`), two READs in a row are one READ of their sum, and FINAL_PRF of a slot that
holds a message leaves a reader with nothing extracted. No command before the first READ gives output. -/

namespace Sys2Proof.Machine

/-! ### READ's loop from any SQPOS (R163, R164) -/

/-- A reader with nothing undelivered stands at the start of the stream of its state words. -/
theorem delivered_zero (cfg : Config) {sl : Slot} (h : sl.sqPos.val = 16) : Delivered cfg sl.s 0 sl :=
  ⟨rfl, h, fun hne => absurd rfl hne⟩

/-- READ of a reader with nothing undelivered. -/
theorem readBytes_of_drained (cfg : Config) {sl : Slot} (h : sl.sqPos.val = 16) (n : Nat) :
    (readBytes cfg n sl).1 = streamOf cfg.perm sl.s n ∧ Delivered cfg sl.s n (readBytes cfg n sl).2 := by
  obtain ⟨hbytes, hd⟩ := (delivered_zero cfg h).readBytes n
  rw [Nat.zero_add] at hd
  refine ⟨?_, hd⟩
  rw [hbytes, streamOf_eq_bytes]
  simp only [Nat.zero_add]

/-- READ of at least the bytes that OBUF still holds: these, and then as from a reader with nothing undelivered. -/
theorem readBytes_past_buffered (cfg : Config) {sl : Slot} {n : Nat} (hn : 16 - sl.sqPos.val ≤ n) :
    (readBytes cfg n sl).1 =
        sl.obuf.toList.drop sl.sqPos.val ++ streamOf cfg.perm sl.s (n - (16 - sl.sqPos.val)) ∧
      Delivered cfg sl.s (n - (16 - sl.sqPos.val)) (readBytes cfg n sl).2 := by
  obtain ⟨hbytes, -, hpos, hs⟩ := readBytes_of_buffered cfg (16 - sl.sqPos.val) sl le_rfl
  have hdrained : (readBytes cfg (16 - sl.sqPos.val) sl).2.sqPos.val = 16 := by omega
  have hall : (sl.obuf.toList.drop sl.sqPos.val).take (16 - sl.sqPos.val) = sl.obuf.toList.drop sl.sqPos.val :=
    List.take_of_length_le (by simp)
  obtain ⟨hrest, hd⟩ := readBytes_of_drained cfg hdrained (n - (16 - sl.sqPos.val))
  rw [hs] at hrest hd
  have hadd := readBytes_add cfg (16 - sl.sqPos.val) (n - (16 - sl.sqPos.val)) sl
  rw [Nat.add_sub_cancel' hn, hbytes, hall, hrest] at hadd
  rw [hadd]
  exact ⟨rfl, hd⟩

theorem take_streamOf (cfg : Config) (s0 : Words) {k n : Nat} (h : k ≤ n) :
    (streamOf cfg.perm s0 n).take k = streamOf cfg.perm s0 k := by
  rw [streamOf_eq_bytes, streamOf_eq_bytes, ← List.map_take, List.take_range, Nat.min_eq_left h]

/-- READ delivers the undelivered bytes of OBUF and then the stream of S, as many bytes as asked for (R161). -/
theorem readBytes_bytes (cfg : Config) (n : Nat) (sl : Slot) :
    (readBytes cfg n sl).1 = (sl.obuf.toList.drop sl.sqPos.val ++ streamOf cfg.perm sl.s n).take n := by
  have hl : (sl.obuf.toList.drop sl.sqPos.val).length = 16 - sl.sqPos.val := by simp
  by_cases hn : n ≤ 16 - sl.sqPos.val
  · rw [List.take_append_of_le_length (hn.trans_eq hl.symm), (readBytes_of_buffered cfg n sl hn).1]
  · rw [List.take_append, List.take_of_length_le (by omega), hl, take_streamOf cfg sl.s (Nat.sub_le _ _),
      (readBytes_past_buffered cfg (by omega)).1]

/-- READ permutes S once for each block it extracts (R163). -/
theorem readBytes_words (cfg : Config) (n : Nat) (sl : Slot) :
    (readBytes cfg n sl).2.s = cfg.perm^[(n - (16 - sl.sqPos.val) + 15) / 16] sl.s := by
  by_cases hn : n ≤ 16 - sl.sqPos.val
  · obtain ⟨-, -, -, hs⟩ := readBytes_of_buffered cfg n sl hn
    rw [hs, Nat.sub_eq_zero_of_le hn]
    rfl
  · exact (readBytes_past_buffered cfg (by omega)).2.words

/-! ### FINAL_PRF and READ -/

/-- The reader FINAL_PRF leaves, field by field (R158). -/
theorem finalPrfBody_slot (cfg : Config) (sl : Slot) :
    (finalPrfBody cfg sl).slot =
      ⟨cfg.perm (xorBlock sl.s (paddedBlock sl.buffered) 1), Vector.replicate 32 0, 0, Vector.replicate 16 0, 16,
        .squeeze, sl.persona⟩ := rfl

section Reader

variable {s : State} {ctx : BitVec 4} {sl : Slot} (hr : Running s) (hc : ctx.toNat < Config.hw.nCtx)
  (hsl : s.slotAt ctx.toNat = sl) (hq : sl.persona = .prf)
include hr hc hsl hq

/-- FINAL_PRF of a PRF context absorbs its padded block and starts a reader (R158). -/
theorem exec_finalPrf (hp : sl.phase = .absorb) :
    exec (.finalPrf ctx) s =
      .next (answered s ctx.toNat (finalPrfBody Config.hw sl).slot (okWord .squeeze .prf) []) :=
  exec_completes (i := .finalPrf ctx) hr hc nofun rfl hsl (admits_finalPrf.2 ⟨hp, hq⟩) rfl rfl
    (congrArg (okWord .squeeze) hq)

/-- READ of a reader runs its loop (R161, R163). -/
theorem exec_read (hp : sl.phase = .squeeze) (n : BitVec 8) :
    exec (.read ctx n) s =
      .next (answered s ctx.toNat (readBytes Config.hw n.toNat sl).2 (okWord .squeeze .prf)
        (readBytes Config.hw n.toNat sl).1) := by
  obtain ⟨-, -, hp', hq'⟩ := readBytes_frame Config.hw n.toNat sl
  exact exec_completes (i := .read ctx n) hr hc nofun rfl hsl (admits_read.2 ⟨hp, hq⟩) rfl rfl
    (congrArg₂ okWord (hp'.trans hp) (hq'.trans hq))

end Reader

/-- Settles O36: the reader's slot, written out. -/
theorem finalPrfStartsTheReader : Obligations.FinalPrfStartsTheReader := by
  intro s ctx sl hr hc hsl hp hq
  rw [exec_finalPrf hr hc hsl hq hp, finalPrfBody_slot, paddedBlock_buffered, hq]
  rfl

/-- Settles O37, by whether OBUF holds all the bytes. -/
theorem readDeliversTheNextBytes : Obligations.ReadDeliversTheNextBytes := by
  intro s ctx n sl hr hc hsl hp hq
  obtain ⟨hbuf, hlen, hp', hq'⟩ := readBytes_frame Config.hw n.toNat sl
  refine ⟨_, ?_, readBytes_words Config.hw n.toNat sl, fun hn => ?_, fun hn => ?_, hbuf, hlen, hp'.trans hp,
    hq'.trans hq⟩
  · rw [exec_read hr hc hsl hq hp, readBytes_bytes]
    rfl
  · obtain ⟨-, hobuf, hpos, -⟩ := readBytes_of_buffered Config.hw n.toNat sl hn
    exact ⟨hobuf, hpos⟩
  · obtain ⟨-, hpos, hblock⟩ := (readBytes_past_buffered Config.hw hn.le).2
    have hne : n.toNat - (16 - sl.sqPos.val) ≠ 0 := Nat.sub_ne_zero_of_lt hn
    exact ⟨by rw [hblock hne, extract_toList], hpos.trans (if_neg hne)⟩

/-! ### The output of a run -/

theorem outputsSince_of_append {s t : State} {rs : List Response} (h : t.responses = s.responses ++ rs) :
    outputsSince s t = (rs.map Response.payload).flatten := by
  rw [outputsSince, h, List.drop_left]

@[simp] theorem outputsSince_self (s : State) : outputsSince s s = [] :=
  outputsSince_of_append (List.append_nil _).symm

@[simp] theorem outputsSince_answered (s : State) (c : Nat) (sl : Slot) (w : BitVec 32) (out : List Byte) :
    outputsSince s (answered s c sl w out) = out :=
  (outputsSince_of_append (answered_responses s c sl w out)).trans (List.append_nil out)

/-- Answers are never taken back: a run only adds to them. -/
theorem responses_prefix_runAllIn (cfg : Config) (is : List Instr) (s : State) :
    s.responses <+: (runAllIn cfg is s).responses := by
  induction is generalizing s with
  | nil => exact List.prefix_rfl
  | cons i is ih =>
    obtain ⟨⟨r, hone⟩, -⟩ := runIn_answers cfg i s
    exact (hone ▸ List.prefix_append _ _).trans (ih (runIn cfg i s))

/-- The output of a run is that of its parts, one after the other. -/
theorem outputsSince_runAllIn_append (cfg : Config) (is js : List Instr) (s : State) :
    outputsSince s (runAllIn cfg (is ++ js) s) =
      outputsSince s (runAllIn cfg is s) ++
        outputsSince (runAllIn cfg is s) (runAllIn cfg js (runAllIn cfg is s)) := by
  obtain ⟨rs, hrs⟩ := responses_prefix_runAllIn cfg is s
  obtain ⟨rs', hrs'⟩ := responses_prefix_runAllIn cfg js (runAllIn cfg is s)
  rw [runAllIn_append, outputsSince_of_append hrs.symm, outputsSince_of_append hrs'.symm, ← List.flatten_append,
    ← List.map_append]
  apply outputsSince_of_append
  rw [← hrs', ← hrs, List.append_assoc]

theorem outputsSince_runAllIn_cons (cfg : Config) (i : Instr) (is : List Instr) (s : State) :
    outputsSince s (runAllIn cfg (i :: is) s) =
      outputsSince s (runIn cfg i s) ++ outputsSince (runIn cfg i s) (runAllIn cfg is (runIn cfg i s)) :=
  outputsSince_runAllIn_append cfg [i] is s

/-- A command whose body has no output, in any state and any slot. -/
def Silent (cfg : Config) (i : Instr) : Prop := ∀ s sl, (bodyOf cfg i s sl).out = []

/-- Such a command answers no bytes, whether it completes or not. -/
theorem Silent.outputsSince_runIn {cfg : Config} {i : Instr} (h : Silent cfg i) (s : State) :
    outputsSince s (runIn cfg i s) = [] := by
  rcases runIn_cases cfg i s with ⟨-, -, e⟩ | ⟨-, -, e⟩ | ⟨-, -, e⟩ <;> rw [e]
  · rw [complete_eq_answered, outputsSince_answered]
    exact h s _
  · exact outputsSince_of_append (rejected_responses s)
  · exact outputsSince_of_append (faulted_responses s _ _)

/-- Nor does a run of them. -/
theorem outputsSince_runAllIn_of_silent {cfg : Config} {is : List Instr} (h : ∀ i ∈ is, Silent cfg i) (s : State) :
    outputsSince s (runAllIn cfg is s) = [] := by
  induction is generalizing s with
  | nil => exact outputsSince_self s
  | cons i is ih =>
    obtain ⟨hi, his⟩ := List.forall_mem_cons.1 h
    rw [outputsSince_runAllIn_cons, hi.outputsSince_runIn, ih his]
    rfl

/-! ### Runs of READs (R165) -/

/-- The slot a completed command has written reads as its new content. -/
theorem slotAt_answered_of_running {s : State} (hr : Running s) {c : Nat} (hc : c < Config.hw.nCtx) (sl : Slot)
    (w : BitVec 32) (out : List Byte) : (answered s c sl w out).slotAt c = sl := by
  obtain ⟨hn, -, -⟩ := hr
  exact (slotAt_answered ..).trans (if_pos (hc.trans_eq hn.symm))

/-- A run of READs of a reader leaves the engine running, and is READ's loop for the sum of the counts. -/
theorem runAllIn_read {s : State} {ctx : BitVec 4} {sl : Slot} (hr : Running s) (hc : ctx.toNat < Config.hw.nCtx)
    (hsl : s.slotAt ctx.toNat = sl) (hp : sl.phase = .squeeze) (hq : sl.persona = .prf) (counts : List (BitVec 8)) :
    Running (runAllIn Config.hw (counts.map (Instr.read ctx)) s) ∧
      (runAllIn Config.hw (counts.map (Instr.read ctx)) s).slotAt ctx.toNat =
        (readBytes Config.hw (counts.map BitVec.toNat).sum sl).2 ∧
      outputsSince s (runAllIn Config.hw (counts.map (Instr.read ctx)) s) =
        (readBytes Config.hw (counts.map BitVec.toNat).sum sl).1 := by
  induction counts generalizing s sl with
  | nil => exact ⟨hr, hsl, outputsSince_self s⟩
  | cons n counts ih =>
    obtain ⟨-, -, hp', hq'⟩ := readBytes_frame Config.hw n.toNat sl
    obtain ⟨hrun, hslot, hout⟩ := ih (running_answered hr _ _ _ _)
      (slotAt_answered_of_running hr hc (readBytes Config.hw n.toNat sl).2 (okWord .squeeze .prf)
        (readBytes Config.hw n.toNat sl).1) (hp'.trans hp) (hq'.trans hq)
    rw [List.map_cons, outputsSince_runAllIn_cons, runAllIn_cons, ← eq_runIn_of_exec (exec_read hr hc hsl hq hp n),
      List.map_cons, List.sum_cons, readBytes_add, outputsSince_answered, hout]
    exact ⟨hrun, hslot, rfl⟩

/-- Settles O49: both splits are the loop for the one sum. -/
theorem readIsStreamingConsistent : Obligations.ReadIsStreamingConsistent := by
  intro s ctx counts counts' hr hc hp hq hsum
  obtain ⟨⟨-, hf, -⟩, hslot, hout⟩ := runAllIn_read hr hc rfl hp hq counts
  obtain ⟨⟨-, hf', -⟩, hslot', hout'⟩ := runAllIn_read hr hc rfl hp hq counts'
  refine ⟨_, _, execAll_eq_runAllIn _ s, execAll_eq_runAllIn _ s, hf, hf', ?_, ?_, fun hpos => ?_⟩
  · rw [hout, hout', hsum]
  · rw [hslot, hslot', hsum]
  · rw [hout]
    exact (readBytes_of_drained Config.hw (congrArg Fin.val hpos) _).1

/-! ### The PRF of a message in pieces (R166) -/

/-- INIT_PRF, ABSORBs and FINAL_PRF leave the engine running and a reader with nothing extracted, whose state words have
taken the whole message. -/
theorem runAllIn_initPrf_absorb_finalPrf {s : State} {ctx : BitVec 4} (hr : Running s)
    (hc : ctx.toNat < Config.hw.nCtx) (key : List Byte) (pieces : List (List Byte)) :
    Running (runAllIn Config.hw ([.initPrf ctx 16 key] ++ pieces.map (Instr.absorb ctx) ++ [.finalPrf ctx]) s) ∧
      ∃ sl, (runAllIn Config.hw ([.initPrf ctx 16 key] ++ pieces.map (Instr.absorb ctx) ++ [.finalPrf ctx]) s).slotAt
          ctx.toNat = sl ∧
        sl.phase = .squeeze ∧ sl.persona = .prf ∧ sl.sqPos.val = 16 ∧
        sl.s = absorbMessage Config.hw.perm (startWords Config.hw.perm (Config.hw.iv .prf) key) pieces.flatten := by
  rw [List.singleton_append, runAllIn_append, runAllIn_cons _ (.initPrf ctx 16 key),
    ← eq_runIn_of_exec (exec_initPrf hr hc key)]
  obtain ⟨hr', sl, hsl, hholds, ha, hq⟩ := runAllIn_absorb_holds (running_answered hr _ _ _ _) hc
    (slotAt_answered_of_running hr hc (startContext Config.hw .prf .absorb .prf key (s.slotAt ctx.toNat)) _ _)
    rfl rfl rfl pieces
  have hp : sl.phase = .absorb := by
    rcases admits_absorb.1 ha with ⟨hp, -⟩ | ⟨-, hprng⟩
    · exact hp
    · cases hq.symm.trans hprng
  rw [runAllIn_cons, runAllIn_nil, ← eq_runIn_of_exec (exec_finalPrf hr' hc hsl hq hp)]
  exact ⟨running_answered hr' _ _ _ _, _, slotAt_answered_of_running hr' hc _ _ _, rfl, hq, rfl, hholds.padFlush_s⟩

/-- Settles O52: the commands before the READs are silent, and the READs deliver the stream of the state they leave. -/
theorem prfDependsOnKeyMessageAndPositionOnly : Obligations.PrfDependsOnKeyMessageAndPositionOnly := by
  intro s ctx key pieces counts hr hc _ _
  obtain ⟨hr', sl, hsl, hp, hq, hpos, hs⟩ := runAllIn_initPrf_absorb_finalPrf hr hc key pieces
  obtain ⟨⟨-, hf, -⟩, -, hout⟩ := runAllIn_read hr' hc hsl hp hq counts
  have hsilent : ∀ i ∈ [.initPrf ctx 16 key] ++ pieces.map (Instr.absorb ctx) ++ [.finalPrf ctx],
      Silent Config.hw i := by
    intro i hi
    simp only [List.mem_append, List.mem_singleton, List.mem_map] at hi
    rcases hi with (rfl | ⟨_, -, rfl⟩) | rfl <;> exact fun _ _ => rfl
  refine ⟨_, execAll_eq_runAllIn _ s, ?_, ?_⟩
  · rw [runAllIn_append]
    exact hf
  · rw [outputsSince_runAllIn_append, outputsSince_runAllIn_of_silent hsilent, List.nil_append, hout,
      (readBytes_of_drained Config.hw hpos _).1, hs]
    rfl

end Sys2Proof.Machine
end

section
/-! PROOF of O38, O39, O53 and O54: the PRNG persona (spec/45_prng.md R174, R178, R179). FEED_END is PAD_FLUSH and the phase
again, so after ABSORBs it completes the message that BUF and S have taken up to then. GENERATE gives the first block of the
stream of S and leaves the rest of that stream to the next one. -/

namespace Sys2Proof.Machine

/-! ### FEED_END and GENERATE -/

/-- The slot FEED_END leaves, field by field (R174). -/
theorem feedEndBody_slot (cfg : Config) (sl : Slot) :
    (feedEndBody cfg sl).slot =
      ⟨cfg.perm (xorBlock sl.s (paddedBlock sl.buffered) 1), Vector.replicate 32 0, 0, sl.obuf, sl.sqPos, .prngReady,
        sl.persona⟩ := rfl

section Prng

variable {s : State} {ctx : BitVec 4} {sl : Slot} (hr : Running s) (hc : ctx.toNat < Config.hw.nCtx)
  (hsl : s.slotAt ctx.toNat = sl) (hq : sl.persona = .prng)
include hr hc hsl hq

/-- FEED_END completes in a PRNG context, with or without a feed begun (R174). -/
theorem exec_feedEnd (hp : sl.phase = .prngReady ∨ sl.phase = .prngFeed) :
    exec (.feedEnd ctx) s =
      .next (answered s ctx.toNat (feedEndBody Config.hw sl).slot (okWord .prngReady .prng) []) :=
  exec_completes (i := .feedEnd ctx) hr hc nofun rfl hsl (admits_feedEnd.2 ⟨hp, hq⟩) rfl rfl
    (congrArg (okWord .prngReady) hq)

/-- GENERATE of a PRNG context with no feed begun gives its output block and permutes (R178). -/
theorem exec_generate (hp : sl.phase = .prngReady) :
    exec (.generate ctx) s =
      .next (answered s ctx.toNat (permute Config.hw sl) (okWord .prngReady .prng) (outputBlock sl.s)) :=
  exec_completes (i := .generate ctx) hr hc nofun rfl hsl (admits_generate.2 ⟨hp, hq⟩) rfl rfl (congrArg₂ okWord hp hq)

end Prng

/-- Settles O38: the slot after FEED_END, written out. -/
theorem feedEndPadsTheEntropy : Obligations.FeedEndPadsTheEntropy := by
  intro s ctx sl hr hc hsl hp hq
  rw [exec_feedEnd hr hc hsl hq hp, feedEndBody_slot, paddedBlock_buffered, hq]
  rfl

/-- Settles O39: the slot after GENERATE, written out. -/
theorem generateOutputsThenPermutes : Obligations.GenerateOutputsThenPermutes := fun _ _ _ hr hc hsl hp hq =>
  exec_generate hr hc hsl hq hp

/-! ### A run of GENERATEs (R179) -/

/-- The stream of a state is its output block, and then the stream of the permuted state (R164). -/
theorem streamOf_block_add (perm : Words → Words) (s : Words) (n : Nat) :
    streamOf perm s (16 + n) = outputBlock s ++ streamOf perm (perm s) n := by
  have hq : (16 + n) / 16 = n / 16 + 1 := by omega
  rw [streamOf, hq, List.range_succ_eq_map, List.map_cons, List.map_map, List.flatten_cons, ← outputBlock_length s]
  exact List.take_length_add_append n

/-- A run of GENERATEs leaves the engine running, gives the stream of S block by block, and permutes S once for each. -/
theorem runAllIn_generate {s : State} {ctx : BitVec 4} {sl : Slot} (hr : Running s) (hc : ctx.toNat < Config.hw.nCtx)
    (hsl : s.slotAt ctx.toNat = sl) (hp : sl.phase = .prngReady) (hq : sl.persona = .prng) (k : Nat) :
    Running (runAllIn Config.hw (List.replicate k (.generate ctx)) s) ∧
      outputsSince s (runAllIn Config.hw (List.replicate k (.generate ctx)) s) =
        streamOf Config.hw.perm sl.s (16 * k) ∧
      ((runAllIn Config.hw (List.replicate k (.generate ctx)) s).slotAt ctx.toNat).s = Config.hw.perm^[k] sl.s := by
  induction k generalizing s sl with
  | zero => exact ⟨hr, outputsSince_self s, congrArg Slot.s hsl⟩
  | succ k ih =>
    obtain ⟨hrun, hout, hwords⟩ := ih (running_answered hr _ _ _ _)
      (slotAt_answered_of_running hr hc (permute Config.hw sl) (okWord .prngReady .prng) (outputBlock sl.s)) hp hq
    rw [List.replicate_succ, outputsSince_runAllIn_cons, runAllIn_cons,
      ← eq_runIn_of_exec (exec_generate hr hc hsl hq hp), outputsSince_answered, hout, Nat.mul_succ, Nat.add_comm,
      streamOf_block_add]
    exact ⟨hrun, rfl, hwords⟩

/-- Settles O53: the run of GENERATEs, from the slot as the state holds it. -/
theorem generateGivesTheReaderStream : Obligations.GenerateGivesTheReaderStream := by
  intro s ctx k hr hc hp hq
  obtain ⟨⟨-, hf, -⟩, hout, hwords⟩ := runAllIn_generate hr hc rfl hp hq k
  exact ⟨_, execAll_eq_runAllIn _ s, hf, hout, hwords⟩

/-! ### One feed (R174) -/

/-- FEED_END of a slot that has taken a feed's bytes since it was ready with nothing buffered: but for S it is that slot
again, whatever the phase says of the feed. -/
theorem feedEndBody_appendAll (cfg : Config) {sl : Slot} (hp : sl.phase = .prngReady) (hlen : sl.bufLen = 0)
    (hbuf : sl.buf = Vector.replicate 32 0) (p : Phase) (bytes : List Byte) :
    (feedEndBody cfg { appendAll cfg sl bytes with phase := p }).slot =
      { sl with s := absorbMessage cfg.perm sl.s bytes } := by
  have hs : (padFlush cfg (appendAll cfg sl bytes)).s = absorbMessage cfg.perm sl.s bytes :=
    ((holds_nil cfg hlen hbuf).appendAll bytes).padFlush_s
  obtain ⟨hobuf, hsqPos, -, hq⟩ := appendAll_frame cfg sl bytes
  calc (feedEndBody cfg { appendAll cfg sl bytes with phase := p }).slot
    _ = ⟨(padFlush cfg (appendAll cfg sl bytes)).s, Vector.replicate 32 0, 0, (appendAll cfg sl bytes).obuf,
          (appendAll cfg sl bytes).sqPos, .prngReady, (appendAll cfg sl bytes).persona⟩ := rfl
    _ = { sl with s := absorbMessage cfg.perm sl.s bytes } := by rw [hs, hobuf, hsqPos, hq, ← hbuf, ← hlen, ← hp]

/-- Settles O54: the ABSORBs append all bytes and leave the slot in a phase that admits FEED_END. -/
theorem feedAbsorbsOnePaddedMessage : Obligations.FeedAbsorbsOnePaddedMessage := by
  intro s ctx pieces sl hr hc hsl hp hq hlen hbuf _
  have ha : admits .absorb sl.phase sl.persona = true := admits_absorb.2 (.inr ⟨.inl hp, hq⟩)
  obtain ⟨hr', p, ha', hsl'⟩ := runAllIn_absorb hr hc hsl ha pieces
  obtain ⟨-, -, -, hq'⟩ := appendAll_frame Config.hw sl pieces.flatten
  have hp' : p = .prngReady ∨ p = .prngFeed := by
    rcases admits_absorb.1 ha' with ⟨-, h⟩ | ⟨h, -⟩
    · simp [hq] at h
    · exact h
  refine ⟨_, execAll_eq_runAllIn _ s, ?_⟩
  rw [runAllIn_append, runAllIn_cons, runAllIn_nil, ← eq_runIn_of_exec (exec_feedEnd hr' hc hsl' (hq'.trans hq) hp'),
    slotAt_answered_of_running hr' hc]
  obtain ⟨-, hf, -⟩ := hr'
  exact ⟨hf, feedEndBody_appendAll Config.hw hp hlen hbuf p _⟩

end Sys2Proof.Machine
end

section
/-! PROOF of O40: the short-input persona SHORT (spec/46_short.md R201, R203, R205 to R207). Its body keeps nothing of the
slot, and every phase admits it, so CHECK looks at the lengths alone: LEN is the message's, as long as it fits in that
field, and AUX is the tag's. -/

namespace Sys2Proof.Machine

/-- Step 4 of CHECK for a SHORT whose message length LEN can hold (60_exceptions.md R238). -/
theorem lengthCause_short {ctx : BitVec 4} {t : BitVec 8} {key msg : List Byte} (hm : msg.length ≤ 255) :
    lengthCause (Instr.short ctx t key msg).header =
      if msg.length ≤ 16 ∧ t.toNat ≤ 16 then .none else .shortLength := by
  have hlen : (BitVec.ofNat 8 msg.length).toNat = msg.length := Nat.mod_eq_of_lt (Nat.lt_succ_of_le hm)
  simp only [lengthCause, Instr.header, hlen, shortMax]

/-- The tag of the permuted short input, cut to `t` bytes, is `SHORT(K, M, t)`, whichever words SHORT_IDX selects (R203,
R205). -/
theorem take_shortTag16 (cfg : Config) (key msg : List Byte) (t : Nat) :
    (shortTag16 cfg key (cfg.perm (shortInput cfg t key msg))).take t = shortOf cfg key msg t := by
  unfold shortTag16 shortOf
  cases cfg.shortIdx <;> rfl

/-- SHORT's body: whatever the slot held, it is zeroized, DONE and SHORT, and the output is `SHORT(K, M, t)` (R205,
R206). -/
theorem shortBody_eq (cfg : Config) (t : BitVec 8) (key msg : List Byte) (sl : Slot) :
    shortBody cfg t key msg sl =
      ⟨⟨⟨0, 0, 0, 0, 0⟩, Vector.replicate 32 0, 0, Vector.replicate 16 0, 16, .done, .short⟩,
        shortOf cfg key msg t.toNat, .none⟩ := by
  rw [← take_shortTag16]
  rfl

/-- SHORT within both limits completes, whatever the slot holds (R201). -/
theorem exec_short {s : State} {ctx : BitVec 4} {t : BitVec 8} {key msg : List Byte} (hr : Running s)
    (hc : ctx.toNat < Config.hw.nCtx) (hl : lengthCause (Instr.short ctx t key msg).header = .none) :
    exec (.short ctx t key msg) s =
      .next (answered s ctx.toNat
        ⟨⟨0, 0, 0, 0, 0⟩, Vector.replicate 32 0, 0, Vector.replicate 16 0, 16, .done, .short⟩ (okWord .done .short)
        (shortOf Config.hw key msg t.toNat)) :=
  exec_completes (i := .short ctx t key msg) hr hc nofun hl rfl rfl (shortBody_eq Config.hw t key msg _) rfl rfl

/-- Settles O40: within the limits CHECK passes and the body decides, and past either limit step 4 of CHECK fails. -/
theorem shortIsAFunctionOfItsOperands : Obligations.ShortIsAFunctionOfItsOperands := by
  intro s ctx t key msg hr hc _ hmsg
  have hl := lengthCause_short (ctx := ctx) (t := t) (key := key) hmsg
  constructor
  · exact fun hm ht => exec_short hr hc (hl.trans (if_pos ⟨hm, ht⟩))
  · intro hlong
    have hnot : ¬(msg.length ≤ 16 ∧ t.toNat ≤ 16) := by omega
    exact exec_length_fault (i := .short ctx t key msg) hr hc nofun (hl.trans (if_neg hnot)) nofun

end Sys2Proof.Machine
end

section
/-! PROOF of O12 and O13: a command word whose payload is not complete (spec/20_memory.md R54), and the three places where
reset arrives (spec/70_reset_and_hazards.md R270 to R273). -/

namespace Sys2Proof.Machine

/-- A command whose payload is not there yet has no step. -/
theorem step_of_waiting {s : State} {w : BitVec 32} {items : List PortItem} (hin : s.input = .word w :: items)
    (hp : takePayload (inLen w) items = .waiting) : step s = .fault .awaitingPayload := by
  simp only [step, stepWith, hin, hp]

/-- A command that a reset cuts off leaves the reset state and what follows the reset. -/
theorem step_of_interrupted {s : State} {w : BitVec 32} {items rest : List PortItem} (hin : s.input = .word w :: items)
    (hp : takePayload (inLen w) items = .interrupted rest) : step s = .next (resetState s rest) := by
  simp only [step, stepWith, hin, hp]
  rfl

/-- A reset between commands leaves the same. -/
theorem step_of_reset {s : State} {rest : List PortItem} (hin : s.input = .reset :: rest) :
    step s = .next (resetState s rest) := by
  simp only [step, stepWith, hin]
  rfl

/-- Settles O12: too few bytes are collected as `waiting`. -/
theorem incompletePayloadHolds : Obligations.IncompletePayloadHolds := fun _ _ _ hlt hin =>
  step_of_waiting hin (takePayload_waiting hlt)

/-- Settles O13: a reset between commands is taken at once, and one behind a command word cuts its payload or body off. -/
theorem resetAtAnyTime : Obligations.ResetAtAnyTime := fun _ rest =>
  ⟨step_of_reset, fun _ _ hlt hin => step_of_interrupted hin (takePayload_reset rest hlt), fun _ _ hl hin =>
    step_of_interrupted hin (takePayload_resetInBody rest hl.le)⟩

end Sys2Proof.Machine
end

section
/-! PROOF of O15, O17, O18 and O19: what becomes of a whole command on the port, said by CHECK's ordered tests on its word
(spec/60_exceptions.md R237, R238, R240 to R242). It completes, is rejected by a faulted engine, or faults with the first
cause that applies. -/

namespace Sys2Proof.Machine

/-! ### A completed command -/

section Completed

variable (h : Header) (body : Slot → BodyResult) (s : State)

@[simp] theorem complete_fault : (complete h body s).fault = s.fault := rfl
@[simp] theorem complete_cause : (complete h body s).cause = s.cause := rfl
@[simp] theorem complete_fcmd : (complete h body s).fcmd = s.fcmd := rfl

/-- It is answered once, with OK = 1, FAULT and CAUSE as held (20_memory.md R55). -/
theorem complete_answers :
    ∃ r : Response, (complete h body s).responses = s.responses ++ [r] ∧ r.word.getLsbD 0 = true ∧
      r.word.getLsbD 1 = s.fault ∧ r.word.extractLsb' 8 8 = causeCode s.cause := by
  obtain ⟨hok, hf, hc, -⟩ := responseWord_fields true s.fault (body (s.slotAt h.ctx.toNat)).verdict s.cause
    (phaseCode (body (s.slotAt h.ctx.toNat)).slot.phase) (personaCode (body (s.slotAt h.ctx.toNat)).slot.persona)
  exact ⟨_, rfl, hok, hf, hc⟩

variable {h body s}

/-- If its body leaves the slot as it is, it changes nothing but the answers. -/
theorem complete_of_slot_kept (hb : (body (s.slotAt h.ctx.toNat)).slot = s.slotAt h.ctx.toNat) :
    complete h body s = { s with responses := (complete h body s).responses } := by
  rw [complete_eq_answered, hb, answered_slotAt]

end Completed

/-! ### Commands that run while FAULT = 1 (R240) -/

/-- NOP and QUERY, by the word's OP. -/
theorem runsWhileFaulted_iff (h : Header) :
    runsWhileFaulted h.op = true ↔ opOf h.toWord = 0x00 ∨ opOf h.toWord = 0x01 := by
  rw [opOf_toWord]
  cases h.op <;> decide

/-- Their bodies leave the slot as it is (41_context.md R101, R106). -/
theorem bodyOf_slot_of_runsWhileFaulted {i : Instr} (h : runsWhileFaulted i.header.op = true) (cfg : Config) (s : State)
    (sl : Slot) : (bodyOf cfg i s sl).slot = sl := by
  cases i with
  | nop => rfl
  | query _ => rfl
  | _ => cases h

/-! ### A whole command -/

/-- CHECK's ordered tests on an instruction's word are `check` on its header (R238). -/
theorem checkOrder_word (i : Instr) (s : State) : checkOrder i.word s = check Config.hw i.header s :=
  checkOrder_of_ok s (ofWord_word i)

/-- Everything a whole command can do (R237, R240). -/
theorem runCommand_cases {w : BitVec 32} {payload : List Byte} (hl : payload.length = inLen w) (s : State) :
    (checkOrder w s = .none ∧
      ∃ i, decode w payload = .ok i ∧ i.word = w ∧ (s.fault = true → runsWhileFaulted i.header.op = true) ∧
        runCommand exec w payload s = .next (complete i.header (bodyOf Config.hw i s) s)) ∨
    (s.fault = true ∧ ((opOf w ≠ 0x00 ∧ opOf w ≠ 0x01) ∨ checkOrder w s ≠ .none) ∧
      runCommand exec w payload s = .next (rejected s)) ∨
    (s.fault = false ∧ checkOrder w s ≠ .none ∧
      runCommand exec w payload s = .next (faulted s w (checkOrder w s))) := by
  rcases decode_cases w payload with ⟨h, -, hd⟩ | ⟨e, hw, hne, hd⟩
  · obtain ⟨i, hd⟩ : ∃ i, decode w payload = .ok i := ⟨_, hd⟩
    obtain rfl := word_of_decode hl hd
    rw [runCommand_of_ok hd, exec_eq_runIn, checkOrder_word]
    rcases runIn_cases Config.hw i s with ⟨hc, hrun, e⟩ | ⟨hf, hwhy, e⟩ | ⟨hf, hc, e⟩ <;> rw [e]
    · exact .inl ⟨hc, i, hd, rfl, hrun, rfl⟩
    · refine .inr (.inl ⟨hf, hwhy.imp_left fun hnot => ?_, rfl⟩)
      rw [← not_or, Instr.word, ← runsWhileFaulted_iff, hnot]
      decide
    · exact .inr (.inr ⟨hf, hc, rfl⟩)
  · have hc : checkOrder w s ≠ .none := by rw [checkOrder_of_error s hw]; exact decodeCause_ne_none hne
    rw [runCommand_of_error hd]
    rcases frameRejected_cases w e s with ⟨hf, e'⟩ | ⟨hf, e'⟩ <;> rw [e']
    · exact .inr (.inl ⟨hf, .inr hc, rfl⟩)
    · exact .inr (.inr ⟨hf, hc, by rw [checkOrder_of_error s hw]⟩)

/-- A step that has a next state takes the reset that arrives or runs a whole command. -/
theorem reset_or_runCommand_of_step {s t : State} (h : step s = .next t) :
    (∃ rest, ResetArrives s rest ∧ t = resetState s rest) ∨
    (∃ w payload rest, payload.length = inLen w ∧ s.input = commandItems w payload ++ rest ∧
      runCommand exec w payload { s with input := rest } = .next t) := by
  rcases step_next_cases h with hreset | ⟨w, payload, rest, hl, hin, ⟨i, hd, hi⟩ | ⟨e, hd, rfl⟩⟩
  · exact .inl hreset
  · exact .inr ⟨w, payload, rest, hl, hin, (runCommand_of_ok hd _).trans hi⟩
  · exact .inr ⟨w, payload, rest, hl, hin, runCommand_of_error hd _⟩

/-- Settles O15: on a running engine a command faults with CHECK's cause or completes. -/
theorem checkOrder_decides_step : Obligations.CheckOrder := by
  rintro s w payload rest ⟨-, hf, hcause⟩ hdel
  obtain ⟨hl, -, -⟩ := id hdel
  rw [step_of_delivers hdel]
  rcases runCommand_cases hl { s with input := rest } with ⟨hc, i, hd, -, -, e⟩ | ⟨ht, -, -⟩ | ⟨-, hc, e⟩
  · refine ⟨fun hn => absurd hc hn, fun _ => ⟨i, _, hd, e, hf, hcause, ?_⟩⟩
    obtain ⟨r, hr, hok, -⟩ := complete_answers i.header (bodyOf Config.hw i _) { s with input := rest }
    exact ⟨r, hr, hok⟩
  · cases hf.symm.trans ht
  · exact ⟨fun _ => e, fun hn => absurd hn hc⟩

/-- Settles O17: what runs while FAULT = 1 leaves its slot as it is. -/
theorem faultedEngineRejects : Obligations.FaultedEngineRejects := by
  rintro s w payload rest - ht hdel
  obtain ⟨hl, -, -⟩ := id hdel
  have hexcl : (opOf w ≠ 0x00 ∧ opOf w ≠ 0x01) ∨ checkOrder w s ≠ .none →
      ¬((opOf w = 0x00 ∨ opOf w = 0x01) ∧ checkOrder w s = .none) := fun hwhy ⟨hop, hc⟩ =>
    hwhy.elim (fun hnot => not_or.2 hnot hop) fun hn => hn hc
  rw [step_of_delivers hdel]
  rcases runCommand_cases hl { s with input := rest } with ⟨hc, i, -, rfl, hrun, e⟩ | ⟨-, hwhy, e⟩ | ⟨hf, -, -⟩
  · have hop := (runsWhileFaulted_iff i.header).1 (hrun ht)
    refine ⟨fun hwhy => absurd ⟨hop, hc⟩ (hexcl hwhy), fun _ => ?_⟩
    obtain ⟨r, hr, hok, hfault, hcause⟩ :=
      complete_answers i.header (bodyOf Config.hw i _) { s with input := rest }
    rw [e, complete_of_slot_kept (bodyOf_slot_of_runsWhileFaulted (hrun ht) _ _ _), hr]
    exact ⟨r, rfl, hok, hfault.trans ht, hcause⟩
  · exact ⟨fun _ => e, fun hruns => absurd hruns (hexcl hwhy)⟩
  · cases ht.symm.trans hf

/-- Settles O18: a faulted engine rejects a command, or completes one that leaves its slot as it is. -/
theorem faultIsStickyUntilReset : Obligations.FaultIsStickyUntilReset := by
  intro s t ht hstep
  rcases reset_or_runCommand_of_step hstep with hreset | ⟨w, payload, rest, hl, -, hrun⟩
  · exact .inr hreset
  refine .inl ?_
  rcases runCommand_cases hl { s with input := rest } with ⟨-, i, -, -, hruns, e⟩ | ⟨-, -, e⟩ | ⟨hf, -, -⟩
  · rw [e, complete_of_slot_kept (bodyOf_slot_of_runsWhileFaulted (hruns ht) _ _ _)] at hrun
    cases hrun
    exact ⟨ht, rfl, rfl, rfl⟩
  · rw [e] at hrun
    cases hrun
    exact ⟨ht, rfl, rfl, rfl⟩
  · cases ht.symm.trans hf

/-- Settles O19: reset and completion leave FAULT = 0, so the command faulted. -/
theorem faultsArePrecise : Obligations.FaultsArePrecise := by
  rintro s t - hf hstep ht
  rcases reset_or_runCommand_of_step hstep with ⟨rest, -, rfl⟩ | ⟨w, payload, rest, hl, hin, hrun⟩
  · cases ht
  rcases runCommand_cases hl { s with input := rest } with ⟨-, i, -, -, -, e⟩ | ⟨ht', -, -⟩ | ⟨-, hc, e⟩
  · rw [e] at hrun
    cases hrun
    cases hf.symm.trans ht
  · cases hf.symm.trans ht'
  · rw [e] at hrun
    cases hrun
    exact ⟨w, payload, rest, hl, hin, hc, rfl⟩

end Sys2Proof.Machine
end

section
/-! PROOF of O9 and O16: a command whose lengths fit, as the assembler sees to (spec/30_encoding.md R82), can fail CHECK
for its slot or its phase alone (spec/60_exceptions.md R238, R239). -/

namespace Sys2Proof.Machine

/-- What the assembler accepts fits the encoding (R64, R77). -/
theorem wf_of_assembles {i : Instr} (h : i.assembles = true) : i.wf = true := by
  cases i with
  | initMac _ _ _ => exact (Bool.and_eq_true_iff.1 h).2
  | initPrf _ _ _ => exact (Bool.and_eq_true_iff.1 h).2
  | seedPrng _ _ _ => exact (Bool.and_eq_true_iff.1 h).2
  | absorb _ _ => exact h
  | verifyMac _ _ _ => exact (Bool.and_eq_true_iff.1 h).2
  | short _ _ key msg =>
    simp only [Instr.assembles, Instr.wf, Bool.and_eq_true, beq_iff_eq, decide_eq_true_eq] at h ⊢
    omega
  | _ => rfl

/-- What the assembler accepts passes the length test of CHECK (R238 step 4). -/
theorem lengthCause_of_assembles {i : Instr} (h : i.assembles = true) : lengthCause i.header = .none := by
  cases i with
  | initMac _ len key =>
    obtain ⟨rfl, -⟩ : len = 16 ∧ key.length = 16 := by simpa [Instr.assembles] using h
    rfl
  | initPrf _ len key =>
    obtain ⟨rfl, -⟩ : len = 16 ∧ key.length = 16 := by simpa [Instr.assembles] using h
    rfl
  | seedPrng _ len seed =>
    obtain ⟨rfl, -⟩ : len = 16 ∧ seed.length = 16 := by simpa [Instr.assembles] using h
    rfl
  | verifyMac _ len tag =>
    obtain ⟨rfl, -⟩ : len = 16 ∧ tag.length = 16 := by simpa [Instr.assembles] using h
    rfl
  | short _ t key msg =>
    obtain ⟨⟨ht, -⟩, hm⟩ : (t.toNat ≤ 16 ∧ key.length = 16) ∧ msg.length ≤ 16 := by simpa [Instr.assembles] using h
    rw [lengthCause_short (hm.trans (by decide)), if_pos ⟨hm, ht⟩]
  | _ => rfl

/-- CHECK of a command whose lengths fit looks at the slot and its phase. -/
theorem check_of_lengths_fit {h : Header} (hl : lengthCause h = .none) (cfg : Config) (s : State) :
    check cfg h s =
      if slotsExist cfg h = false then .badSlot
      else if admittedIn h.op.code.toNat (s.slotAt h.ctx.toNat) = false then .illegalPhase
      else .none := by
  simp only [check, hl, admits_eq, ne_eq, not_true_eq_false, if_false]

/-- Settles O9: a fault's cause is CHECK's. -/
theorem assembledCommandsKeepTheFormat : Obligations.AssembledCommandsKeepTheFormat := by
  refine fun i ha => ⟨wf_of_assembles ha, ?_⟩
  rintro s t ⟨-, hf, -⟩ hexec ht
  rw [eq_runIn_of_exec hexec] at ht ⊢
  rcases runIn_cases Config.hw i s with ⟨-, -, e⟩ | ⟨ht', -, -⟩ | ⟨-, hc, e⟩
  · rw [e, complete_fault, hf] at ht
    cases ht
  · cases hf.symm.trans ht'
  · rw [e, faulted_cause]
    rw [check_of_lengths_fit (lengthCause_of_assembles ha)] at hc ⊢
    split_ifs at hc ⊢
    · exact .inl rfl
    · exact .inr rfl
    · exact absurd rfl hc

/-- Settles O16: with an existing slot and lengths that fit, the admission table decides CHECK. -/
theorem phaseAdmission : Obligations.PhaseAdmission := by
  rintro i s ⟨-, hf, -⟩ ha hs hcl
  have hc : check Config.hw i.header s =
      if admittedIn (opOf i.word) (s.slotAt (slotOf i)) = false then .illegalPhase else .none := by
    rw [check_of_lengths_fit (lengthCause_of_assembles ha), if_neg (by simp [slotsExist_of hs hcl]), Instr.word,
      opOf_toWord, slotOf]
  rw [exec_eq_frame]
  refine ⟨fun hadm => ?_, fun hadm => ?_⟩
  · rw [frame_of_check hf (by simp [hc, hadm])]
    exact ⟨_, rfl, hf⟩
  · rw [if_pos hadm] at hc
    rw [frame_of_violation hf (by simp [hc]), hc, Instr.word]

end Sys2Proof.Machine
end

section
/-! PROOF of O42: the response word (spec/20_memory.md R55). A completed command's word is built from the fault record and
the slot as they are after it, and a verdict that only VERIFY_MAC gives. -/

namespace Sys2Proof.Machine

theorem ctxOf_toWord (h : Header) : ctxOf h.toWord = h.ctx.toNat := by
  obtain ⟨-, -, -, hctx, -⟩ := field_nat h.toWord
  rw [← hctx, Header.toWord, ctxField_wordOfFields]

/-- OP 0x31 is VERIFY_MAC (30_encoding.md R67). -/
theorem opOf_word_eq_verifyMac (i : Instr) : opOf i.word = 0x31 ↔ i.header.op = .verifyMac := by
  rw [Instr.word, opOf_toWord]
  cases i.header.op <;> decide

/-- A body gives a verdict just when it is VERIFY_MAC's (43_mac.md R147). -/
theorem bodyOf_verdict (cfg : Config) (i : Instr) (s : State) (sl : Slot) :
    (bodyOf cfg i s sl).verdict ≠ .none ↔ i.header.op = .verifyMac := by
  cases i with
  | verifyMac _ _ tag =>
    refine ⟨fun _ => rfl, fun _ => ?_⟩
    simp only [bodyOf, verifyMacBody, tagVerdict]
    split <;> nofun
  | _ => exact ⟨fun h => absurd rfl h, nofun⟩

/-- The answer to a command that completes on an existing slot, from the state it leaves. -/
theorem responseWord_of_complete {i : Instr} {s t : State} {r : Response} (hn : s.slots.length = Config.hw.nCtx)
    (hc : check Config.hw i.header s = .none) (ht : complete i.header (bodyOf Config.hw i s) s = t)
    (hr : t.responses = s.responses ++ [r]) :
    ∃ v : Verdict, (v ≠ .none ↔ opOf i.word = 0x31) ∧
      r.word = responseWord true t.fault v t.cause (phaseCode (t.slotAt (ctxOf i.word)).phase)
        (personaCode (t.slotAt (ctxOf i.word)).persona) := by
  subst ht
  obtain ⟨hex, -, -⟩ := (check_eq_none _ _ _).1 hc
  have hlt : i.header.ctx.toNat < s.slots.length := by
    rw [hn]
    exact of_decide_eq_true (Bool.and_eq_true_iff.1 hex).1
  rw [complete_eq_answered] at hr ⊢
  cases List.append_cancel_left hr
  refine ⟨(bodyOf Config.hw i s (s.slotAt i.header.ctx.toNat)).verdict,
    (bodyOf_verdict Config.hw i s _).trans (opOf_word_eq_verifyMac i).symm, ?_⟩
  rw [Instr.word, ctxOf_toWord, slotAt_answered, if_pos hlt]
  rfl

/-- The answer to a command that is rejected or faults, from the state it leaves. -/
theorem responseWord_of_refused {t : State} {before : List Response} {r : Response} (hf : t.fault = true)
    (ht : t.responses = before ++ [⟨0#16 ++ causeCode t.cause ++ 0x02#8, []⟩]) (hr : t.responses = before ++ [r]) :
    r.word = responseWord false t.fault .none t.cause 0 0 := by
  cases List.append_cancel_left (hr.symm.trans ht)
  rw [hf, responseWord_rejected]

/-- The answer to every delivered command, from the state it leaves (R55). -/
theorem responseWord_of_delivered {s t : State} {w : BitVec 32} {payload : List Byte} {rest : List PortItem}
    {r : Response} (hn : s.slots.length = Config.hw.nCtx) (hdel : Delivers s w payload rest) (hstep : step s = .next t)
    (hr : t.responses = s.responses ++ [r]) :
    (∃ v : Verdict, (v ≠ .none ↔ opOf w = 0x31) ∧
      r.word = responseWord true t.fault v t.cause (phaseCode (t.slotAt (ctxOf w)).phase)
        (personaCode (t.slotAt (ctxOf w)).persona)) ∨
    (t.slots = s.slots ∧ r.word = responseWord false t.fault .none t.cause 0 0) := by
  obtain ⟨hl, -, -⟩ := id hdel
  rw [step_of_delivers hdel] at hstep
  rcases runCommand_cases hl { s with input := rest } with ⟨hc, i, -, rfl, -, e⟩ | ⟨hf, -, e⟩ | ⟨-, -, e⟩ <;>
    rw [e] at hstep
  · rw [checkOrder_word] at hc
    exact .inl (responseWord_of_complete (s := { s with input := rest }) hn hc (Host.Outcome.next.inj hstep) hr)
  · cases hstep
    exact .inr ⟨rfl, responseWord_of_refused hf rfl hr⟩
  · cases hstep
    exact .inr ⟨rfl, responseWord_of_refused rfl rfl hr⟩

/-- Settles O42: the fields of the two kinds of answer. -/
theorem responseWordFields : Obligations.ResponseWordFields := by
  intro s t w payload rest r hn hdel hstep hr
  rcases responseWord_of_delivered hn hdel hstep hr with ⟨v, hv, hword⟩ | ⟨hslots, hword⟩
  · obtain ⟨hok, hf, hc, h4, h19, h23, hp, hq, hpass, hfail⟩ := responseWord_fields true t.fault v t.cause
      (phaseCode (t.slotAt (ctxOf w)).phase) (personaCode (t.slotAt (ctxOf w)).persona)
    rw [hword, hok, hpass, hfail]
    refine ⟨hf, hc, h4, h19, h23, fun _ => ⟨hp, hq, fun hop => ?_, fun hop => ?_⟩, nofun⟩
    · cases v with
      | none => exact absurd rfl (hv.2 hop)
      | pass => rfl
      | fail => rfl
    · obtain rfl : v = .none := not_not.1 (mt hv.1 hop)
      exact ⟨rfl, rfl⟩
  · obtain ⟨hok, hf, hc, h4, h19, h23, hp, hq, hpass, hfail⟩ := responseWord_fields false t.fault .none t.cause 0 0
    rw [hword, hok]
    exact ⟨hf, hc, h4, h19, h23, nofun, fun _ => ⟨hp, hq, hpass, hfail, hslots⟩⟩

end Sys2Proof.Machine
end

section
/-! PROOF of O8: the pieces of ABSORB_ALL and READ_ALL (spec/30_encoding.md R83). -/

namespace Sys2Proof.Machine

/-! ### ABSORB_ALL -/

/-- With enough fuel no byte is lost. -/
theorem flatten_chunks255 {fuel : Nat} {bytes : List Byte} (h : bytes.length ≤ fuel) :
    (chunks255 fuel bytes).flatten = bytes := by
  fun_induction chunks255 fuel bytes with
  | case1 bytes => exact (List.eq_nil_of_length_eq_zero (Nat.le_zero.1 h)).symm
  | case2 => rfl
  | case3 fuel b bs ih =>
    have hdrop : ((b :: bs).drop 255).length ≤ fuel := by
      simp only [List.length_drop, List.length_cons] at h ⊢
      omega
    rw [List.flatten_cons, ih hdrop, List.take_append_drop]

/-- No piece is empty or longer than 255. -/
theorem length_of_mem_chunks255 {fuel : Nat} {bytes piece : List Byte} (h : piece ∈ chunks255 fuel bytes) :
    1 ≤ piece.length ∧ piece.length ≤ 255 := by
  fun_induction chunks255 fuel bytes with
  | case1 => cases h
  | case2 => cases h
  | case3 fuel b bs ih =>
    rcases List.mem_cons.1 h with rfl | h
    · simp only [List.length_take, List.length_cons]
      omega
    · exact ih h

/-- Only the last piece is shorter: a further piece has bytes only if this one is full. -/
theorem length_of_mem_dropLast_chunks255 {fuel : Nat} {bytes piece : List Byte}
    (h : piece ∈ (chunks255 fuel bytes).dropLast) : piece.length = 255 := by
  fun_induction chunks255 fuel bytes with
  | case1 => cases h
  | case2 => cases h
  | case3 fuel b bs ih =>
    cases hnext : chunks255 fuel ((b :: bs).drop 255) with
    | nil => rw [hnext] at h; cases h
    | cons next more =>
      have hne : (b :: bs).drop 255 ≠ [] := by
        rintro hnil
        rw [hnil] at hnext
        cases fuel <;> cases hnext
      rw [hnext, List.dropLast_cons_cons, ← hnext] at h
      rcases List.mem_cons.1 h with rfl | h
      · rw [ne_eq, List.drop_eq_nil_iff] at hne
        rw [List.length_take]
        omega
      · exact ih h

/-! ### READ_ALL -/

/-- The counts of READ_ALL's pieces: full ones, then the remainder if there is one. -/
def readCounts (n : Nat) : List (BitVec 8) :=
  List.replicate (n / 255) 255 ++ if n % 255 > 0 then [BitVec.ofNat 8 (n % 255)] else []

theorem readAll_eq (ctx : BitVec 4) (n : Nat) : Sys2Proof.readAll ctx n = (readCounts n).map (Instr.read ctx) := by
  unfold Sys2Proof.readAll readCounts
  split_ifs <;> simp

/-- The remainder fits a count. -/
theorem toNat_remainder (n : Nat) : (BitVec.ofNat 8 (n % 255)).toNat = n % 255 :=
  Nat.mod_eq_of_lt ((Nat.mod_lt n (by decide)).trans (by decide))

theorem sum_readCounts (n : Nat) : ((readCounts n).map BitVec.toNat).sum = n := by
  have hfull : ((List.replicate (n / 255) (255 : BitVec 8)).map BitVec.toNat).sum = n / 255 * 255 := by simp
  rw [readCounts, List.map_append, List.sum_append, hfull]
  split_ifs with h
  · rw [List.map_singleton, List.sum_singleton, toNat_remainder]
    omega
  · rw [List.map_nil, List.sum_nil]
    omega

theorem pos_of_mem_readCounts {n : Nat} {k : BitVec 8} (h : k ∈ readCounts n) : 1 ≤ k.toNat := by
  rcases List.mem_append.1 h with h | h
  · rw [List.eq_of_mem_replicate h]
    decide
  · split_ifs at h with hpos
    · rw [List.mem_singleton.1 h, toNat_remainder]
      exact hpos
    · cases h

theorem eq_of_mem_dropLast_readCounts {n : Nat} {k : BitVec 8} (h : k ∈ (readCounts n).dropLast) : k = 255 := by
  unfold readCounts at h
  split_ifs at h
  · rw [List.dropLast_concat] at h
    exact List.eq_of_mem_replicate h
  · rw [List.append_nil] at h
    exact List.eq_of_mem_replicate (List.mem_of_mem_dropLast h)

/-- Settles O8: the pieces are `chunks255`'s and the counts `readCounts`'. -/
theorem pseudoCommandPieces : Obligations.PseudoCommandPieces :=
  ⟨fun _ bytes => ⟨chunks255 bytes.length bytes, rfl, flatten_chunks255 le_rfl, fun _ => length_of_mem_chunks255,
    fun _ => length_of_mem_dropLast_chunks255⟩,
   fun ctx n => ⟨readCounts n, readAll_eq ctx n, sum_readCounts n, fun _ => pos_of_mem_readCounts,
    fun _ => eq_of_mem_dropLast_readCounts⟩⟩

end Sys2Proof.Machine
end

section
/-! PROOF of O44: `be64` and `bytes_be` (spec/00_scope.md R10), compared as numbers. -/

namespace Sys2Proof.Machine

/-- A word shifted up by a byte and filled with one, as a number, where nothing is shifted out. -/
theorem toNat_shiftLeft_or_byte {w : Word} (h : w.toNat < 256 ^ 7) (b : Byte) :
    (w <<< 8 ||| b.setWidth 64).toNat = b.toNat + 256 * w.toNat := by
  have hb : b.toNat < 2 ^ 8 := b.isLt
  rw [BitVec.toNat_or, BitVec.toNat_shiftLeft, BitVec.toNat_setWidth, Nat.shiftLeft_eq, Nat.mod_eq_of_lt (by omega),
    Nat.mod_eq_of_lt (by omega), ← Nat.shiftLeft_eq, ← Nat.shiftLeft_add_eq_or_of_lt hb, Nat.shiftLeft_eq]
  omega

/-- The digits of a byte string, the last byte first. -/
def byteDigits (bytes : List Byte) : List ℕ := bytes.reverse.map BitVec.toNat

theorem lt_of_mem_byteDigits {bytes : List Byte} {d : ℕ} (h : d ∈ byteDigits bytes) : d < 256 := by
  obtain ⟨b, -, rfl⟩ := List.mem_map.1 h
  exact b.isLt

@[simp] theorem byteDigits_length (bytes : List Byte) : (byteDigits bytes).length = bytes.length := by
  simp [byteDigits]

theorem byteDigits_injective : Function.Injective byteDigits := fun _ _ h =>
  List.reverse_injective (List.map_injective_iff.2 (fun _ _ => BitVec.eq_of_toNat_eq) h)

/-- `be64` of at most eight bytes is the number with these digits. -/
theorem toNat_be64 {bytes : List Byte} (h : bytes.length ≤ 8) :
    (be64 bytes).toNat = Nat.ofDigits 256 (byteDigits bytes) := by
  induction bytes using List.reverseRecOn with
  | nil => rfl
  | append_singleton bytes b ih =>
    rw [List.length_append, List.length_singleton] at h
    have ih := ih (by omega)
    have hlt : (be64 bytes).toNat < 256 ^ 7 := by
      rw [ih]
      refine (Nat.ofDigits_lt_base_pow_length (by decide) fun _ => lt_of_mem_byteDigits).trans_le ?_
      rw [byteDigits_length]
      exact Nat.pow_le_pow_right (by decide) (by omega)
    have hdigits : byteDigits (bytes ++ [b]) = b.toNat :: byteDigits bytes := by simp [byteDigits]
    rw [be64_snoc, toNat_shiftLeft_or_byte hlt, ih, hdigits, Nat.ofDigits_cons]

/-- So eight bytes are determined by their word. -/
theorem eq_of_be64_eq {a b : List Byte} (ha : a.length = 8) (hb : b.length = 8) (h : be64 a = be64 b) : a = b := by
  have h' := congrArg BitVec.toNat h
  rw [toNat_be64 ha.le, toNat_be64 hb.le] at h'
  refine byteDigits_injective (Nat.ofDigits_inj_of_len_eq (by decide) ?_ (fun _ => lt_of_mem_byteDigits)
    (fun _ => lt_of_mem_byteDigits) h')
  rw [byteDigits_length, byteDigits_length, ha, hb]

/-- A word is `be64` of its bytes. -/
theorem be64_bytesBe (w : Word) : be64 (bytesBe w) = w := by
  have hdigits : byteDigits (bytesBe w) = (List.range 8).map fun k => w.toNat / 2 ^ (8 * k) % 256 := by
    simp [byteDigits, bytesBe, List.range_succ, Nat.shiftRight_eq_div_pow]
  have hw := w.isLt
  apply BitVec.eq_of_toNat_eq
  rw [toNat_be64 (bytesBe_length w).le, hdigits]
  simp only [List.range_succ, List.range_zero, List.nil_append, List.cons_append, List.map_cons, List.map_nil,
    Nat.ofDigits_cons, Nat.ofDigits_nil]
  omega

/-- Settles O44: the sum by the digits, and one inverse from the other because `be64` is injective on eight bytes. -/
theorem bigEndianConversions : Obligations.BigEndianConversions := by
  refine ⟨fun b0 b1 b2 b3 b4 b5 b6 b7 => ?_, fun b hb => ?_, fun w => ⟨bytesBe_length w, be64_bytesBe w, fun k hk => ?_⟩⟩
  · rw [toNat_be64 le_rfl]
    simp only [byteDigits, List.reverse_cons, List.reverse_nil, List.nil_append, List.cons_append, List.map_cons,
      List.map_nil, Nat.ofDigits_cons, Nat.ofDigits_nil]
    omega
  · exact eq_of_be64_eq (bytesBe_length _) hb (be64_bytesBe _)
  · simp [bytesBe, hk]

end Sys2Proof.Machine
end

section
/-! PROOF of O5: the worked encodings (spec/30_encoding.md R84). -/

namespace Sys2Proof.Machine

/-- Settles O5, row by row: the header of each word and the instruction of that header. -/
theorem workedEncodings : Obligations.WorkedEncodings := by
  intro key tag bytes hbytes
  refine ⟨decode_of_ofWord (h := ⟨.nop, 0, 0, 0⟩) rfl _, decode_of_ofWord (h := ⟨.query, 0, 0, 2⟩) rfl _,
    decode_of_ofWord (h := ⟨.clone, 0, 0, 1⟩) rfl _, decode_of_ofWord (h := ⟨.initMac, 16, 0, 0⟩) rfl _,
    decode_of_ofWord (h := ⟨.initPrf, 16, 0, 3⟩) rfl _, decode_of_ofWord (h := ⟨.seedPrng, 16, 0, 1⟩) rfl _,
    decode_of_ofWord (h := ⟨.absorb, 3, 0, 0⟩) rfl _,
    ⟨hbytes ▸ rfl, decode_of_ofWord (h := ⟨.absorb, 255, 0, 0⟩) rfl _⟩,
    decode_of_ofWord (h := ⟨.finalMac, 0, 0, 0⟩) rfl _, decode_of_ofWord (h := ⟨.verifyMac, 16, 0, 0⟩) rfl _,
    decode_of_ofWord (h := ⟨.finalPrf, 0, 0, 3⟩) rfl _, decode_of_ofWord (h := ⟨.read, 20, 0, 3⟩) rfl _,
    decode_of_ofWord (h := ⟨.feedEnd, 0, 0, 1⟩) rfl _, decode_of_ofWord (h := ⟨.generate, 0, 0, 1⟩) rfl _, ?_⟩
  rw [List.take_append_drop]
  exact decode_of_ofWord (h := ⟨.short, 5, 16, 0⟩) rfl key

end Sys2Proof.Machine
end
